-- ==== Sys2Proof/Word.lean ====
section
/-! DEFINITION. The word types of the CHIP-8 core: an 8-bit byte (a V register, a timer, a memory cell), a 16-bit word
(an instruction, `I`, `pc`, a stack entry), a 12-bit immediate address, and the 16 register and key indexes
(spec/10_state.md R21, R23, R25, R28; spec/30_encoding.md R80, R81). -/

namespace Sys2Proof

/-- 8 bits: a V register, a timer, a byte of memory, the immediate `NN` (R21, R26, R50, R81). -/
abbrev Byte := BitVec 8

/-- 16 bits: an instruction word, `I`, `pc`, a stack entry (R23, R24, R25, R80). -/
abbrev Word := BitVec 16

/-- The 12-bit immediate address `NNN` (R81). -/
abbrev Addr12 := BitVec 12

/-- The index of a V register, 0..15 (R21, R83: all 16 values are legal for X and Y). -/
abbrev RegIx := Fin 16

/-- The index of a key, 0..15 (R28). -/
abbrev KeyIx := Fin 16

end Sys2Proof
end

