-- ==== Sys2Proof/Config.lean ====
section
/-! DEFINITION. What is fixed for one machine and is not state: the fixed parameters of spec/00_scope.md R5, the three
quirk parameters of R6, which the source leaves open, and the free byte of `RND` (R7). The quirks and the random byte
are constants without a body, so that nothing can be proved of their values (notes/assumptions/4.md, 5.md). -/

namespace Sys2Proof.Config

/-- `MEM_SIZE` (R5): bytes of memory. -/
def memSize : Nat := 4096

/-- `PROG_BASE` (R5): the address of the first program byte and the reset value of `pc`. -/
def progBase : Nat := 0x200

/-- `MAX_PROG` (R5): the largest program image in bytes, 4096 - 512. -/
def maxProg : Nat := 3584

/-- `Q_SHIFT_VY` (R6): true when `SHR` and `SHL` shift `V[Y]` into `V[X]`, false when they shift `V[X]` in place.
DESIGN CHOICE: uninterpreted (notes/assumptions/4.md). -/
opaque qShiftVy : Bool

/-- `Q_MEM_INC_I` (R6): true when `LD [I],Vx` and `LD Vx,[I]` add X + 1 to `I`.
DESIGN CHOICE: uninterpreted (notes/assumptions/4.md). -/
opaque qMemIncI : Bool

/-- `Q_CLIP` (R6): true when sprite pixels beyond the right or bottom edge are not drawn, false when they wrap.
DESIGN CHOICE: uninterpreted (notes/assumptions/4.md). -/
opaque qClip : Bool

/-- `draw_byte()` (R7, R131): the free byte of the n-th draw. DESIGN CHOICE: a stream nothing is known of, read at the
counter `State.draws` (notes/assumptions/5.md). -/
opaque randomByte : Nat → Byte

end Sys2Proof.Config
end

