-- ==== Sys2Proof/Syntax.lean ====
section
/-! DEFINITION. The 34 instructions of spec/30_encoding.md R84 (spec/opcode_table.json), one constructor per row, with
the decoded operands of R81: `x`, `y` register indexes, `nn` an immediate byte, `nnn` an immediate address, `n` a row
count. -/

namespace Sys2Proof

/-- The closed set of instruction variants (R85), named as the rows of R84. -/
inductive Instr where
  /-- `00E0` CLS (R170) -/
  | cls
  /-- `00EE` RET (R103) -/
  | ret
  /-- `1NNN` JP addr (R101) -/
  | jp (nnn : Addr12)
  /-- `2NNN` CALL addr (R102) -/
  | call (nnn : Addr12)
  /-- `3XNN` SE Vx,byte (R105) -/
  | seImm (x : RegIx) (nn : Byte)
  /-- `4XNN` SNE Vx,byte (R106) -/
  | sneImm (x : RegIx) (nn : Byte)
  /-- `5XY0` SE Vx,Vy (R107) -/
  | seReg (x y : RegIx)
  /-- `6XNN` LD Vx,byte (R120) -/
  | ldImm (x : RegIx) (nn : Byte)
  /-- `7XNN` ADD Vx,byte (R121) -/
  | addImm (x : RegIx) (nn : Byte)
  /-- `8XY0` LD Vx,Vy (R122) -/
  | ldReg (x y : RegIx)
  /-- `8XY1` OR Vx,Vy (R123) -/
  | orReg (x y : RegIx)
  /-- `8XY2` AND Vx,Vy (R124) -/
  | andReg (x y : RegIx)
  /-- `8XY3` XOR Vx,Vy (R125) -/
  | xorReg (x y : RegIx)
  /-- `8XY4` ADD Vx,Vy (R126) -/
  | addReg (x y : RegIx)
  /-- `8XY5` SUB Vx,Vy (R127) -/
  | sub (x y : RegIx)
  /-- `8XY6` SHR Vx, with the optional Vy (R128) -/
  | shr (x y : RegIx)
  /-- `8XY7` SUBN Vx,Vy (R129) -/
  | subn (x y : RegIx)
  /-- `8XYE` SHL Vx, with the optional Vy (R130) -/
  | shl (x y : RegIx)
  /-- `9XY0` SNE Vx,Vy (R108) -/
  | sneReg (x y : RegIx)
  /-- `ANNN` LD I,addr (R150) -/
  | ldI (nnn : Addr12)
  /-- `BNNN` JP V0,addr (R104) -/
  | jpV0 (nnn : Addr12)
  /-- `CXNN` RND Vx,byte (R131) -/
  | rnd (x : RegIx) (nn : Byte)
  /-- `DXYN` DRW Vx,Vy,nibble (R171); `n` is the number of sprite rows -/
  | drw (x y : RegIx) (n : Nat)
  /-- `EX9E` SKP Vx (R180) -/
  | skp (x : RegIx)
  /-- `EXA1` SKNP Vx (R181) -/
  | sknp (x : RegIx)
  /-- `FX07` LD Vx,DT (R183) -/
  | ldVxDT (x : RegIx)
  /-- `FX0A` LD Vx,K (R182) -/
  | ldVxK (x : RegIx)
  /-- `FX15` LD DT,Vx (R184) -/
  | ldDTVx (x : RegIx)
  /-- `FX18` LD ST,Vx (R185) -/
  | ldSTVx (x : RegIx)
  /-- `FX1E` ADD I,Vx (R151) -/
  | addI (x : RegIx)
  /-- `FX29` LD F,Vx (R152) -/
  | ldF (x : RegIx)
  /-- `FX33` LD B,Vx (R153) -/
  | ldB (x : RegIx)
  /-- `FX55` LD [I],Vx (R154) -/
  | ldMemVx (x : RegIx)
  /-- `FX65` LD Vx,[I] (R155) -/
  | ldVxMem (x : RegIx)
deriving DecidableEq, Repr

end Sys2Proof
end

