-- ==== Sys2Proof/WellFormed.lean ====
section
/-! DEFINITION. What the checks of the spec say of an instruction and of a program image before anything runs. The
types of `Instr` already bound X, Y, NN and NNN to their fields (spec/30_encoding.md R81, R83); the row count of `DRW`,
a number the rule loops to, and the length of an image (spec/20_memory.md R62) are checked here. -/

namespace Sys2Proof

/-- The operands are values the encoding admits: `DRW`'s row count is a nibble, 0..15 (R83). -/
def Instr.wellFormed : Instr → Bool
  | .cls => true
  | .ret => true
  | .jp _ => true
  | .call _ => true
  | .seImm _ _ => true
  | .sneImm _ _ => true
  | .seReg _ _ => true
  | .ldImm _ _ => true
  | .addImm _ _ => true
  | .ldReg _ _ => true
  | .orReg _ _ => true
  | .andReg _ _ => true
  | .xorReg _ _ => true
  | .addReg _ _ => true
  | .sub _ _ => true
  | .shr _ _ => true
  | .subn _ _ => true
  | .shl _ _ => true
  | .sneReg _ _ => true
  | .ldI _ => true
  | .jpV0 _ => true
  | .rnd _ _ => true
  | .drw _ _ n => decide (n ≤ 15)
  | .skp _ => true
  | .sknp _ => true
  | .ldVxDT _ => true
  | .ldVxK _ => true
  | .ldDTVx _ => true
  | .ldSTVx _ => true
  | .addI _ => true
  | .ldF _ => true
  | .ldB _ => true
  | .ldMemVx _ => true
  | .ldVxMem _ => true

/-- A program image is a byte sequence that fits from `PROG_BASE` to the end of memory (R62, R241). -/
def imageFits (image : List Byte) : Bool := decide (image.length ≤ Config.maxProg)

end Sys2Proof
end

