-- ==== Sys2Proof/Decode.lean ====
section
/-! DEFINITION. The decoder and the encoder of spec/30_encoding.md: the fields of a word (R81), the byte order of an
instruction (spec/20_memory.md R54, R55), the decode function (R85), the encoder written from the formats of R82, and
the opcode map as a table of masks and matches (R84), against which the decoder is stated. The bit patterns the source
does not give are the spec's general knowledge (notes/assumptions/9.md, PRESUMED). -/

namespace Sys2Proof

/-! ### Bytes and fields -/

/-- Big-endian: the byte at the lower address is `w[15:8]` (R54, R55). -/
def wordOfBytes (hi lo : Byte) : Word := hi ++ lo

/-- The byte of a word that stands at the lower address, `w[15:8]` (R55). -/
def hiByte (w : Word) : Byte := BitVec.ofNat 8 (w.toNat / 0x100)

/-- The byte of a word that stands at the higher address, `w[7:0]` (R55). -/
def loByte (w : Word) : Byte := BitVec.ofNat 8 w.toNat

/-- The low four bits of a number, as an index 0..15. -/
def nibble (n : Nat) : Fin 16 := ⟨n % 16, Nat.mod_lt n (by decide)⟩

/-- `class` = `w[15:12]` (R81). -/
def fieldClass (w : Word) : Nat := w.toNat / 0x1000

/-- `X` = `w[11:8]` (R81). -/
def fieldX (w : Word) : RegIx := nibble (w.toNat / 0x100)

/-- `Y` = `w[7:4]` (R81). -/
def fieldY (w : Word) : RegIx := nibble (w.toNat / 0x10)

/-- `N` = `w[3:0]` (R81). -/
def fieldN (w : Word) : Nat := w.toNat % 0x10

/-- `NN` = `w[7:0]` (R81). -/
def fieldNN (w : Word) : Byte := BitVec.ofNat 8 w.toNat

/-- `NNN` = `w[11:0]` (R81). -/
def fieldNNN (w : Word) : Addr12 := BitVec.ofNat 12 w.toNat

/-! ### Decode -/

/-- The result of decoding a word (R85): an instruction with its fields, or `Unknown(w)`. -/
inductive Decoded where
  /-- one of the 34 instructions -/
  | known (i : Instr)
  /-- a word that is no row of the opcode map (R86) -/
  | unknown (w : Word)
deriving DecidableEq, Repr

/-- Class 8, by its sub-operation `N` (R85). -/
def decodeAlu (w : Word) : Decoded :=
  match fieldN w with
  | 0x0 => .known (.ldReg (fieldX w) (fieldY w))
  | 0x1 => .known (.orReg (fieldX w) (fieldY w))
  | 0x2 => .known (.andReg (fieldX w) (fieldY w))
  | 0x3 => .known (.xorReg (fieldX w) (fieldY w))
  | 0x4 => .known (.addReg (fieldX w) (fieldY w))
  | 0x5 => .known (.sub (fieldX w) (fieldY w))
  | 0x6 => .known (.shr (fieldX w) (fieldY w))
  | 0x7 => .known (.subn (fieldX w) (fieldY w))
  | 0xE => .known (.shl (fieldX w) (fieldY w))
  | _ => .unknown w

/-- Class E, by its sub-operation `NN` (R85). -/
def decodeKey (w : Word) : Decoded :=
  match (fieldNN w).toNat with
  | 0x9E => .known (.skp (fieldX w))
  | 0xA1 => .known (.sknp (fieldX w))
  | _ => .unknown w

/-- Class F, by its sub-operation `NN` (R85). -/
def decodeMisc (w : Word) : Decoded :=
  match (fieldNN w).toNat with
  | 0x07 => .known (.ldVxDT (fieldX w))
  | 0x0A => .known (.ldVxK (fieldX w))
  | 0x15 => .known (.ldDTVx (fieldX w))
  | 0x18 => .known (.ldSTVx (fieldX w))
  | 0x1E => .known (.addI (fieldX w))
  | 0x29 => .known (.ldF (fieldX w))
  | 0x33 => .known (.ldB (fieldX w))
  | 0x55 => .known (.ldMemVx (fieldX w))
  | 0x65 => .known (.ldVxMem (fieldX w))
  | _ => .unknown w

/-- `Decode(w)` (R85): total on all words, reads no state. -/
def decode (w : Word) : Decoded :=
  match fieldClass w with
  | 0x0 => if w = 0x00E0 then .known .cls else if w = 0x00EE then .known .ret else .unknown w
  | 0x1 => .known (.jp (fieldNNN w))
  | 0x2 => .known (.call (fieldNNN w))
  | 0x3 => .known (.seImm (fieldX w) (fieldNN w))
  | 0x4 => .known (.sneImm (fieldX w) (fieldNN w))
  | 0x5 => if fieldN w = 0 then .known (.seReg (fieldX w) (fieldY w)) else .unknown w
  | 0x6 => .known (.ldImm (fieldX w) (fieldNN w))
  | 0x7 => .known (.addImm (fieldX w) (fieldNN w))
  | 0x8 => decodeAlu w
  | 0x9 => if fieldN w = 0 then .known (.sneReg (fieldX w) (fieldY w)) else .unknown w
  | 0xA => .known (.ldI (fieldNNN w))
  | 0xB => .known (.jpV0 (fieldNNN w))
  | 0xC => .known (.rnd (fieldX w) (fieldNN w))
  | 0xD => .known (.drw (fieldX w) (fieldY w) (fieldN w))
  | 0xE => decodeKey w
  | 0xF => decodeMisc w
  | _ => .unknown w

/-- Why a byte sequence gives no instruction. -/
inductive DecodeError where
  /-- the first two bytes are a word that decodes to no instruction (R86) -/
  | unknownOpcode (w : Word)
  /-- fewer than the two bytes every instruction has (R80) -/
  | truncated
deriving DecidableEq, Repr

/-- What decoding the front of a byte sequence answers: an instruction and the bytes after it, or a rejection. -/
inductive BytesDecoded where
  /-- an instruction, and the bytes that follow it -/
  | instr (i : Instr) (rest : List Byte)
  /-- no instruction, by name -/
  | rejected (e : DecodeError)
deriving DecidableEq, Repr

/-- Decoding any bytes: every instruction is the first two, big-endian, and nothing else (R80, R55). -/
def decodeBytes : List Byte → BytesDecoded
  | hi :: lo :: rest =>
    match decode (wordOfBytes hi lo) with
    | .known i => .instr i rest
    | .unknown w => .rejected (.unknownOpcode w)
  | [_] => .rejected .truncated
  | [] => .rejected .truncated

/-! ### Encode -/

/-- Format `NNN` (R82). -/
def encodeNNN (cls : Nat) (nnn : Addr12) : Word := BitVec.ofNat 16 (cls * 0x1000 + nnn.toNat)

/-- Formats `XNN` and `X` (R82): the low byte is the immediate or the sub-operation. -/
def encodeXNN (cls : Nat) (x : RegIx) (nn : Byte) : Word :=
  BitVec.ofNat 16 (cls * 0x1000 + x.val * 0x100 + nn.toNat)

/-- Formats `XY` and `XYN` (R82): the low nibble is the sub-operation or the row count. -/
def encodeXYN (cls : Nat) (x y : RegIx) (n : Nat) : Word :=
  BitVec.ofNat 16 (cls * 0x1000 + x.val * 0x100 + y.val * 0x10 + n % 0x10)

/-- The word of an instruction, from the formats of R82 and the patterns of R84. -/
def encode : Instr → Word
  | .cls => 0x00E0
  | .ret => 0x00EE
  | .jp nnn => encodeNNN 0x1 nnn
  | .call nnn => encodeNNN 0x2 nnn
  | .seImm x nn => encodeXNN 0x3 x nn
  | .sneImm x nn => encodeXNN 0x4 x nn
  | .seReg x y => encodeXYN 0x5 x y 0x0
  | .ldImm x nn => encodeXNN 0x6 x nn
  | .addImm x nn => encodeXNN 0x7 x nn
  | .ldReg x y => encodeXYN 0x8 x y 0x0
  | .orReg x y => encodeXYN 0x8 x y 0x1
  | .andReg x y => encodeXYN 0x8 x y 0x2
  | .xorReg x y => encodeXYN 0x8 x y 0x3
  | .addReg x y => encodeXYN 0x8 x y 0x4
  | .sub x y => encodeXYN 0x8 x y 0x5
  | .shr x y => encodeXYN 0x8 x y 0x6
  | .subn x y => encodeXYN 0x8 x y 0x7
  | .shl x y => encodeXYN 0x8 x y 0xE
  | .sneReg x y => encodeXYN 0x9 x y 0x0
  | .ldI nnn => encodeNNN 0xA nnn
  | .jpV0 nnn => encodeNNN 0xB nnn
  | .rnd x nn => encodeXNN 0xC x nn
  | .drw x y n => encodeXYN 0xD x y n
  | .skp x => encodeXNN 0xE x 0x9E
  | .sknp x => encodeXNN 0xE x 0xA1
  | .ldVxDT x => encodeXNN 0xF x 0x07
  | .ldVxK x => encodeXNN 0xF x 0x0A
  | .ldDTVx x => encodeXNN 0xF x 0x15
  | .ldSTVx x => encodeXNN 0xF x 0x18
  | .addI x => encodeXNN 0xF x 0x1E
  | .ldF x => encodeXNN 0xF x 0x29
  | .ldB x => encodeXNN 0xF x 0x33
  | .ldMemVx x => encodeXNN 0xF x 0x55
  | .ldVxMem x => encodeXNN 0xF x 0x65

/-- The two bytes of an instruction, as memory holds them (R80, R55). -/
def encodeBytes (i : Instr) : List Byte := [hiByte (encode i), loByte (encode i)]

/-! ### The opcode map -/

/-- A row of the opcode map (R84): a word `w` is the row's instruction iff `w & mask = pattern`. -/
structure OpcodeRow where
  mask : Word
  pattern : Word
deriving DecidableEq, Repr

/-- Does the row select the word (R84)? -/
def OpcodeRow.selects (r : OpcodeRow) (w : Word) : Bool := decide (w &&& r.mask = r.pattern)

/-- The row of each instruction (R84). -/
def Instr.row : Instr → OpcodeRow
  | .cls => ⟨0xFFFF, 0x00E0⟩
  | .ret => ⟨0xFFFF, 0x00EE⟩
  | .jp _ => ⟨0xF000, 0x1000⟩
  | .call _ => ⟨0xF000, 0x2000⟩
  | .seImm _ _ => ⟨0xF000, 0x3000⟩
  | .sneImm _ _ => ⟨0xF000, 0x4000⟩
  | .seReg _ _ => ⟨0xF00F, 0x5000⟩
  | .ldImm _ _ => ⟨0xF000, 0x6000⟩
  | .addImm _ _ => ⟨0xF000, 0x7000⟩
  | .ldReg _ _ => ⟨0xF00F, 0x8000⟩
  | .orReg _ _ => ⟨0xF00F, 0x8001⟩
  | .andReg _ _ => ⟨0xF00F, 0x8002⟩
  | .xorReg _ _ => ⟨0xF00F, 0x8003⟩
  | .addReg _ _ => ⟨0xF00F, 0x8004⟩
  | .sub _ _ => ⟨0xF00F, 0x8005⟩
  | .shr _ _ => ⟨0xF00F, 0x8006⟩
  | .subn _ _ => ⟨0xF00F, 0x8007⟩
  | .shl _ _ => ⟨0xF00F, 0x800E⟩
  | .sneReg _ _ => ⟨0xF00F, 0x9000⟩
  | .ldI _ => ⟨0xF000, 0xA000⟩
  | .jpV0 _ => ⟨0xF000, 0xB000⟩
  | .rnd _ _ => ⟨0xF000, 0xC000⟩
  | .drw _ _ _ => ⟨0xF000, 0xD000⟩
  | .skp _ => ⟨0xF0FF, 0xE09E⟩
  | .sknp _ => ⟨0xF0FF, 0xE0A1⟩
  | .ldVxDT _ => ⟨0xF0FF, 0xF007⟩
  | .ldVxK _ => ⟨0xF0FF, 0xF00A⟩
  | .ldDTVx _ => ⟨0xF0FF, 0xF015⟩
  | .ldSTVx _ => ⟨0xF0FF, 0xF018⟩
  | .addI _ => ⟨0xF0FF, 0xF01E⟩
  | .ldF _ => ⟨0xF0FF, 0xF029⟩
  | .ldB _ => ⟨0xF0FF, 0xF033⟩
  | .ldMemVx _ => ⟨0xF0FF, 0xF055⟩
  | .ldVxMem _ => ⟨0xF0FF, 0xF065⟩

/-- The whole opcode map, in the order of R84. -/
def opcodeTable : List OpcodeRow :=
  [⟨0xFFFF, 0x00E0⟩, ⟨0xFFFF, 0x00EE⟩, ⟨0xF000, 0x1000⟩, ⟨0xF000, 0x2000⟩, ⟨0xF000, 0x3000⟩, ⟨0xF000, 0x4000⟩,
   ⟨0xF00F, 0x5000⟩, ⟨0xF000, 0x6000⟩, ⟨0xF000, 0x7000⟩, ⟨0xF00F, 0x8000⟩, ⟨0xF00F, 0x8001⟩, ⟨0xF00F, 0x8002⟩] ++
  [⟨0xF00F, 0x8003⟩, ⟨0xF00F, 0x8004⟩, ⟨0xF00F, 0x8005⟩, ⟨0xF00F, 0x8006⟩, ⟨0xF00F, 0x8007⟩, ⟨0xF00F, 0x800E⟩,
   ⟨0xF00F, 0x9000⟩, ⟨0xF000, 0xA000⟩, ⟨0xF000, 0xB000⟩, ⟨0xF000, 0xC000⟩, ⟨0xF000, 0xD000⟩] ++
  [⟨0xF0FF, 0xE09E⟩, ⟨0xF0FF, 0xE0A1⟩, ⟨0xF0FF, 0xF007⟩, ⟨0xF0FF, 0xF00A⟩, ⟨0xF0FF, 0xF015⟩, ⟨0xF0FF, 0xF018⟩,
   ⟨0xF0FF, 0xF01E⟩, ⟨0xF0FF, 0xF029⟩, ⟨0xF0FF, 0xF033⟩, ⟨0xF0FF, 0xF055⟩, ⟨0xF0FF, 0xF065⟩]

/-! ### The host's view of a table word -/

/-- The instruction the decoder reads from an instruction whose bits are `w`, `nbits` of them given and the rest zero.
An instruction is one word, so its two bytes are laid out high byte first (R80, R55). -/
def decodeTableWord (nbits w : Nat) : Option Instr :=
  let word : Word := BitVec.ofNat 16 (w % 2 ^ nbits)
  match decodeBytes [hiByte word, loByte word] with
  | .instr i _ => some i
  | .rejected _ => none

end Sys2Proof
end

