-- ==== Sys2Proof/Machine/State.lean ====
section
/-! DEFINITION. The state of the machine (spec/10_state.md R20 to R29, R32): every piece the spec lists, as plain data,
and two pieces of the model's own, `result` and `draws` (notes/assumptions/1.md, 5.md). The reset state is R32's table
with the empty image. -/

namespace Sys2Proof.Machine

/-- Memory (spec/20_memory.md R50): the listed cells of the 4096-byte array in rising order of address. An address that
is not listed reads as its reset contents (Machine/Ops.lean, `background`). -/
abbrev Memory := List Host.Cell

/-- The framebuffer (R27): 32 rows, top to bottom, of 64 pixels, left to right. -/
abbrev Framebuffer := Vector (Vector Bool 64) 32

/-- The reasons of a fatal event (R29, spec/60_exceptions.md R202). -/
inductive FatalReason where
  /-- a step began with `pc` > 4094 -/
  | fetchOutOfBounds
  /-- `CALL` with 16 entries on the stack -/
  | stackOverflow
  /-- `RET` with an empty stack -/
  | stackUnderflow
deriving DecidableEq, Repr

/-- `run` (R29). -/
inductive RunState where
  /-- instructions execute -/
  | running
  /-- `LD Vx,K` waits for a fresh key press -/
  | waiting
  /-- a fatal event happened; only reset leaves this -/
  | halted (r : FatalReason)
deriving DecidableEq, Repr

/-- What a step answers to the host (spec/60_exceptions.md R200). -/
inductive StepResult where
  /-- `Continue`: an instruction executed to completion -/
  | continued
  /-- `Blocked`: `LD Vx,K` has seen no fresh key press -/
  | blocked
  /-- `UnknownOpcode(w)`: the fetched word is no instruction -/
  | unknownOpcode (w : Word)
  /-- `Fatal(reason)` -/
  | fatal (r : FatalReason)
deriving DecidableEq, Repr

/-- The complete state (R20). -/
structure State where
  /-- `mem`: 4096 bytes (spec/20_memory.md R50) -/
  mem : Memory
  /-- V0..VF; VF is the flag register (R21, R22) -/
  V : Vector Byte 16
  /-- the index register (R23) -/
  I : Word
  /-- the program counter (R25) -/
  pc : Word
  /-- the return addresses (R24); entries at or above `sp` have no meaning -/
  stack : Vector Word 16
  /-- the depth of the stack, 0..16 (R24) -/
  sp : Fin 17
  /-- the delay timer (R26) -/
  DT : Byte
  /-- the sound timer (R26) -/
  ST : Byte
  /-- the framebuffer (R27) -/
  fb : Framebuffer
  /-- the keypad: true while the key is held down (R28) -/
  key : Vector Bool 16
  /-- `run` (R29) -/
  run : RunState
  /-- `key_prev`: the keypad as the previous step of a wait saw it (R29) -/
  keyPrev : Vector Bool 16
  /-- the MODEL's own: what the last step answered to the host, if a step was taken since reset
  (notes/assumptions/1.md) -/
  result : Option StepResult
  /-- the MODEL's own: how many free bytes `RND` has drawn (notes/assumptions/5.md) -/
  draws : Nat
deriving DecidableEq, Repr

/-- Why a step stops the model with a fault: never. The spec gives the state after each of its fatal events
(spec/60_exceptions.md R203), so the model takes them as next states (notes/assumptions/2.md, safe). -/
inductive Fault
deriving DecidableEq, Repr

/-- Why a step has no meaning. -/
inductive Refusal where
  /-- raised by an arm of `exec` whose instruction has no meaning yet, with the instruction's mnemonic; no arm of this
  model raises it. Safe: nothing can be proved of what the instruction does. -/
  | notModelled (mnemonic : String)
deriving DecidableEq, Repr

/-- The machine after reset with the empty image (R32, spec/70_reset_and_hazards.md R240). V, I, `fb` and `key` are
the spec's decision D9 (notes/assumptions/6.md, DESIGN CHOICE); `stack` and `keyPrev` the spec leaves unspecified
(notes/assumptions/7.md, DESIGN CHOICE); `result` and `draws` are the model's own. -/
def State.reset : State where
  mem := []
  V := Vector.replicate 16 0
  I := 0
  pc := BitVec.ofNat 16 Config.progBase
  stack := Vector.replicate 16 0
  sp := 0
  DT := 0
  ST := 0
  fb := Vector.replicate 32 (Vector.replicate 64 false)
  key := Vector.replicate 16 false
  run := .running
  keyPrev := Vector.replicate 16 false
  result := none
  draws := 0

end Sys2Proof.Machine
end

