-- ==== Sys2Proof/Machine/Font.lean ====
section
/-! DEFINITION. The font ROM: its place (spec/00_scope.md R5, `FONT_BASE`) and its 80 bytes (spec/20_memory.md R52).
The spec supplies the bytes from general knowledge (notes/assumptions/8.md, PRESUMED). -/

namespace Sys2Proof.Machine

/-- `FONT_BASE` (R5). -/
def fontBase : Nat := 0x050

/-- `GLYPH_BYTES` (R5): bytes of one glyph. -/
def glyphBytes : Nat := 5

/-- The glyphs 0 to 7, row 0 to row 4 of each (R52). -/
def fontLow : List Byte :=
  [0xF0, 0x90, 0x90, 0x90, 0xF0] ++ [0x20, 0x60, 0x20, 0x20, 0x70] ++
  [0xF0, 0x10, 0xF0, 0x80, 0xF0] ++ [0xF0, 0x10, 0xF0, 0x10, 0xF0] ++
  [0x90, 0x90, 0xF0, 0x10, 0x10] ++ [0xF0, 0x80, 0xF0, 0x10, 0xF0] ++
  [0xF0, 0x80, 0xF0, 0x90, 0xF0] ++ [0xF0, 0x10, 0x20, 0x40, 0x40]

/-- The glyphs 8 to F, row 0 to row 4 of each (R52). -/
def fontHigh : List Byte :=
  [0xF0, 0x90, 0xF0, 0x90, 0xF0] ++ [0xF0, 0x90, 0xF0, 0x10, 0xF0] ++
  [0xF0, 0x90, 0xF0, 0x90, 0x90] ++ [0xE0, 0x90, 0xE0, 0x90, 0xE0] ++
  [0xF0, 0x80, 0x80, 0x80, 0xF0] ++ [0xE0, 0x90, 0x90, 0x90, 0xE0] ++
  [0xF0, 0x80, 0xF0, 0x80, 0xF0] ++ [0xF0, 0x80, 0xF0, 0x80, 0x80]

/-- The 80 bytes of the font ROM, from `FONT_BASE` on (R52). -/
def fontBytes : List Byte := fontLow ++ fontHigh

/-- Does the address lie in the font ROM, 0x050..0x09F (R51)? -/
def isFont (a : Nat) : Bool := decide (fontBase ≤ a) && decide (a ≤ 0x09F)

end Sys2Proof.Machine
end

