-- ==== Sys2Proof/Machine/Ops.lean ====
section
/-! DEFINITION. The named operations the meanings are made of: memory in its canonical form and its two primitives
(spec/20_memory.md R53, R54), the V registers (spec/10_state.md R21), the stack (R24), the ways a step ends
(spec/00_scope.md R9, spec/60_exceptions.md R200 to R204): completing, blocking, reporting an unknown word, and the
fatal event, which is the one exception the machine takes. No return from it exists (R208). -/

namespace Sys2Proof.Machine

/-- What a meaning answers. -/
abbrev Out := Host.Outcome State Fault Refusal

/-! ### Memory -/

/-- What an address that is not listed reads as: the reset contents (R32), the font bytes in the font ROM and zero
elsewhere. -/
def background (a : Nat) : Byte := if isFont a then fontBytes.getD (a - fontBase) 0 else 0

/-- The value listed for an address. -/
def Memory.listed : Memory → Nat → Option Byte
  | [], _ => none
  | (k, c) :: m, a => if k = a then some c else Memory.listed m a

/-- The byte at an address below 4096: a font address always returns the font byte (R57), any other the listed value
or its reset contents. -/
def Memory.read (m : Memory) (a : Nat) : Byte :=
  if isFont a then background a else (m.listed a).getD (background a)

/-- Put a byte at an address of RAM, keeping the canonical form: the list stays in rising order, and writing what an
unlisted address reads as removes the entry. -/
def Memory.put : Memory → Nat → Byte → Memory
  | [], a, b => if b = background a then [] else [(a, b)]
  | (k, c) :: m, a, b =>
    if a < k then (if b = background a then (k, c) :: m else (a, b) :: (k, c) :: m)
    else if a = k then (if b = background a then m else (a, b) :: m)
    else (k, c) :: Memory.put m a b

/-- A write to an address below 4096: discarded in the font ROM (R53). -/
def Memory.write (m : Memory) (a : Nat) (b : Byte) : Memory := if isFont a then m else m.put a b

/-- The canonical form from an address on: the listed addresses rise strictly from `lo`, lie in memory and outside the
font ROM, and no listed value is what the address reads as unlisted. -/
def Memory.wfFrom (lo : Nat) : Memory → Bool
  | [] => true
  | (k, c) :: m =>
    decide (lo ≤ k) && decide (k < Config.memSize) && !isFont k && decide (c ≠ background k) && Memory.wfFrom (k + 1) m

/-- The canonical form of memory. -/
def Memory.wf (m : Memory) : Bool := m.wfFrom 0

/-- `MemRead(addr, 1)` (R53): the byte at `addr mod 4096`. -/
def State.memRead (s : State) (addr : Nat) : Byte := s.mem.read (addr % Config.memSize)

/-- `MemWrite(addr, 1, v)` (R53): the byte at `addr mod 4096`, discarded in the font ROM. -/
def State.memWrite (s : State) (addr : Nat) (b : Byte) : State :=
  { s with mem := s.mem.write (addr % Config.memSize) b }

/-- Bytes to ascending addresses, each wrapping by itself (R53, R156). -/
def State.storeBytes (addr : Nat) : List Byte → State → State
  | [], s => s
  | b :: bs, s => State.storeBytes (addr + 1) bs (s.memWrite addr b)

/-! ### The V registers -/

/-- `V[x]` (R21). -/
def State.getV (s : State) (x : RegIx) : Byte := s.V[x]

/-- `V[x] <- b` (R21). -/
def State.setV (s : State) (x : RegIx) (b : Byte) : State := { s with V := s.V.set x.val b x.isLt }

/-- The index of VF, the flag register (R22). -/
def vf : RegIx := 15

/-- All register indexes, ascending. -/
def allIx : List (Fin 16) := [0, 1, 2, 3, 4, 5, 6, 7, 8, 9, 10, 11, 12, 13, 14, 15]

/-- 0 to X inclusive, ascending (spec/42_index_memory.md R154, R155). -/
def regsUpTo (x : RegIx) : List RegIx := allIx.filter (fun k => decide (k.val ≤ x.val))

/-- `V[k] <- MemRead(base + k, 1)` for the given registers in turn (R155). -/
def State.loadRegs (base : Nat) : List RegIx → State → State
  | [], s => s
  | k :: ks, s => State.loadRegs base ks (s.setV k (s.memRead (base + k.val)))

/-- `MemWrite(base + k, 1, V[k])` for the given registers in turn (R154). -/
def State.dumpRegs (base : Nat) : List RegIx → State → State
  | [], s => s
  | k :: ks, s => State.dumpRegs base ks (s.memWrite (base + k.val) (s.getV k))

/-! ### The stack -/

/-- `push(v)` (R24); none when 16 entries are held. -/
def State.push (s : State) (v : Word) : Option State :=
  if h : s.sp.val < 16 then
    some { s with stack := s.stack.set s.sp.val v h, sp := ⟨s.sp.val + 1, Nat.succ_lt_succ h⟩ }
  else none

/-- `pop()` (R24): the value and the state after it; none when the stack is empty. -/
def State.pop (s : State) : Option (Word × State) :=
  if h : 0 < s.sp.val then
    some (s.stack[s.sp.val - 1]'(by have := s.sp.isLt; omega),
      { s with sp := ⟨s.sp.val - 1, by have := s.sp.isLt; omega⟩ })
  else none

/-! ### The ways a step ends -/

/-- An instruction completed with the given successor (R100, R200 `Continue`). -/
def goTo (target : Word) (s : State) : Out := .next { s with pc := target, result := some .continued }

/-- The ordinary end of an instruction: `pc <- (pc + 2) mod 65536`, result `Continue` (R9, R100). -/
def proceed (s : State) : Out := goTo (s.pc + 2) s

/-- The end of a skip: past one instruction word more when the condition holds (R109). -/
def skipIf (c : Bool) (s : State) : Out := goTo (s.pc + if c then 4 else 2) s

/-- `raise Fatal(reason)`: the step writes nothing but `run <- Halted(reason)` (R203). This is taking the machine's one
exception; control goes nowhere, and there is no return from it (R203, R208). -/
def fatal (r : FatalReason) (s : State) : Out := .next { s with run := .halted r, result := some (.fatal r) }

/-- A step of a halted machine: the same `Fatal(reason)`, no state change (R201 line 1, R203). -/
def stayHalted (r : FatalReason) (s : State) : Out := .next { s with result := some (.fatal r) }

/-- `result Unknown(w)`: reported, and `pc` moves past the word (R204). -/
def reportUnknown (w : Word) (s : State) : Out := .next { s with pc := s.pc + 2, result := some (.unknownOpcode w) }

/-- A step of a wait that sees no fresh key: it samples the keypad, and `pc` stays (R182, R205). -/
def block (s : State) : Out := .next { s with run := .waiting, keyPrev := s.key, result := some .blocked }

/-! ### Fetch -/

/-- Does the fetch stay inside memory (R54)? -/
def State.canFetch (s : State) : Bool := decide (s.pc.toNat ≤ Config.memSize - 2)

/-- The word at `pc`, big-endian (R54, R55). -/
def State.fetchWord (s : State) : Word := wordOfBytes (s.memRead s.pc.toNat) (s.memRead (s.pc.toNat + 1))

end Sys2Proof.Machine
end

