-- ==== Sys2Proof/Machine/Operands.lean ====
section
/-! DEFINITION. The operand forms: the zero-extended immediate address (spec/30_encoding.md R83), the source of a shift
(spec/41_alu.md R128, R130), the key and the glyph a register selects (spec/44_keypad_timers.md R180,
spec/42_index_memory.md R152), the decimal digits of a byte (R153), the rows and the origin of a sprite
(spec/43_display.md R171). -/

namespace Sys2Proof.Machine

/-- `zext_16(NNN)` (R83). -/
def zext16 (nnn : Addr12) : Word := nnn.setWidth 16

/-- `zext_16(V[x])` (R104, R151). -/
def zextByte (b : Byte) : Word := b.setWidth 16

/-- The source of `SHR` and `SHL` under a setting of `Q_SHIFT_VY` (R128, R130). -/
def shiftSource (shiftVy : Bool) (x y : RegIx) (s : State) : Byte := if shiftVy then s.getV y else s.getV x

/-- The low nibble of a byte, as a register value selects a key or a glyph (R180, R152). -/
def lowNibble (b : Byte) : Fin 16 := nibble b.toNat

/-- The address of the glyph a byte selects (R152). -/
def glyphAddr (b : Byte) : Word := BitVec.ofNat 16 (fontBase + glyphBytes * (lowNibble b).val)

/-- The three decimal digits of a byte, hundreds first (R153). -/
def decimalDigits (b : Byte) : List Byte :=
  [BitVec.ofNat 8 (b.toNat / 100), BitVec.ofNat 8 (b.toNat / 10 % 10), BitVec.ofNat 8 (b.toNat % 10)]

/-- `I` past a transfer of V0..VX under a setting of `Q_MEM_INC_I` (R154, R155). -/
def indexAfter (memIncI : Bool) (x : RegIx) (i : Word) : Word :=
  if memIncI then i + BitVec.ofNat 16 (x.val + 1) else i

/-- The sprite bytes of `n` rows at `I` (R171). -/
def State.spriteRows (s : State) (n : Nat) : List Byte :=
  (List.range n).map (fun r => s.memRead (s.I.toNat + r))

/-- The column of a sprite's origin, `V[X] mod 64` (R171). -/
def originX (b : Byte) : Nat := b.toNat % 64

/-- The row of a sprite's origin, `V[Y] mod 32` (R171). -/
def originY (b : Byte) : Nat := b.toNat % 32

/-- The lowest-numbered key that is down now and was up at the previous sample (R182). -/
def lowestFresh (now prev : Vector Bool 16) : Option KeyIx := allIx.find? (fun k => now[k] && !prev[k])

end Sys2Proof.Machine
end

