-- ==== Sys2Proof/Machine/Flags.lean ====
section
/-! DEFINITION. The arithmetic of the ALU and the flag each operation leaves in VF (spec/41_alu.md R126 to R133,
spec/10_state.md R22): results are computed on naturals and reduced modulo 256; the flag is written to VF after the
result (R133). -/

namespace Sys2Proof.Machine

/-- A flag as VF holds it, 0 or 1 (R22). -/
def flagByte (c : Bool) : Byte := if c then 1 else 0

/-- `(a + b) mod 256` (R132). -/
def sumByte (a b : Byte) : Byte := BitVec.ofNat 8 (a.toNat + b.toNat)

/-- The carry of an addition: the sum exceeds 255 (R126). -/
def carryOut (a b : Byte) : Bool := decide (255 < a.toNat + b.toNat)

/-- `(a - b) mod 256`: `a - b` if a ≥ b and `a - b + 256` otherwise (R132). -/
def diffByte (a b : Byte) : Byte :=
  if b.toNat ≤ a.toNat then BitVec.ofNat 8 (a.toNat - b.toNat) else BitVec.ofNat 8 (a.toNat + 256 - b.toNat)

/-- No borrow in `a - b`: a ≥ b (R127, R129). -/
def noBorrow (a b : Byte) : Bool := decide (b.toNat ≤ a.toNat)

/-- `s div 2` (R128, R132). -/
def halfByte (b : Byte) : Byte := BitVec.ofNat 8 (b.toNat / 2)

/-- Bit 0 of the source, shifted out to the right (R128). -/
def lowBit (b : Byte) : Bool := decide (b.toNat % 2 = 1)

/-- `(s * 2) mod 256` (R130, R132). -/
def doubleByte (b : Byte) : Byte := BitVec.ofNat 8 (b.toNat * 2)

/-- Bit 7 of the source, shifted out to the left (R130). -/
def highBit (b : Byte) : Bool := decide (128 ≤ b.toNat)

/-- The result to `V[x]`, then the flag to VF, in this order: with x = VF the flag remains (R133, R22). -/
def writeWithFlag (x : RegIx) (b : Byte) (c : Bool) (s : State) : State := (s.setV x b).setV vf (flagByte c)

end Sys2Proof.Machine
end

