-- ==== Sys2Proof/Machine/Alu.lean ====
section
/-! DEFINITION. The ALU instructions (spec/41_alu.md): operands are read first, then the result is written, then the
flag where the rule has one (R133). -/

namespace Sys2Proof.Machine

/-- `LD Vx,byte` (R120). -/
def execLdImm (x : RegIx) (nn : Byte) (s : State) : Out := proceed (s.setV x nn)

/-- `ADD Vx,byte` (R121): VF is not written as a flag. -/
def execAddImm (x : RegIx) (nn : Byte) (s : State) : Out := proceed (s.setV x (sumByte (s.getV x) nn))

/-- `LD Vx,Vy` (R122). -/
def execLdReg (x y : RegIx) (s : State) : Out := proceed (s.setV x (s.getV y))

/-- `OR Vx,Vy` (R123): VF is not written as a flag. -/
def execOrReg (x y : RegIx) (s : State) : Out := proceed (s.setV x (s.getV x ||| s.getV y))

/-- `AND Vx,Vy` (R124): VF is not written as a flag. -/
def execAndReg (x y : RegIx) (s : State) : Out := proceed (s.setV x (s.getV x &&& s.getV y))

/-- `XOR Vx,Vy` (R125): VF is not written as a flag. -/
def execXorReg (x y : RegIx) (s : State) : Out := proceed (s.setV x (s.getV x ^^^ s.getV y))

/-- `ADD Vx,Vy` (R126): VF is the carry. -/
def execAddReg (x y : RegIx) (s : State) : Out :=
  proceed (writeWithFlag x (sumByte (s.getV x) (s.getV y)) (carryOut (s.getV x) (s.getV y)) s)

/-- `SUB Vx,Vy` (R127): VF is 1 iff `V[X]` ≥ `V[Y]`. -/
def execSub (x y : RegIx) (s : State) : Out :=
  proceed (writeWithFlag x (diffByte (s.getV x) (s.getV y)) (noBorrow (s.getV x) (s.getV y)) s)

/-- `SUBN Vx,Vy` (R129): VF is 1 iff `V[Y]` ≥ `V[X]`. -/
def execSubn (x y : RegIx) (s : State) : Out :=
  proceed (writeWithFlag x (diffByte (s.getV y) (s.getV x)) (noBorrow (s.getV y) (s.getV x)) s)

/-- A shift right by one of a given source (R128): VF is the bit shifted out. -/
def shiftRight (x : RegIx) (b : Byte) (s : State) : Out := proceed (writeWithFlag x (halfByte b) (lowBit b) s)

/-- A shift left by one of a given source (R130): VF is the bit shifted out. -/
def shiftLeft (x : RegIx) (b : Byte) (s : State) : Out := proceed (writeWithFlag x (doubleByte b) (highBit b) s)

/-- `SHR Vx`, with the optional Vy (R128), under the quirk `Q_SHIFT_VY`. -/
def execShr (x y : RegIx) (s : State) : Out := shiftRight x (shiftSource Config.qShiftVy x y s) s

/-- `SHL Vx`, with the optional Vy (R130), under the quirk `Q_SHIFT_VY`. -/
def execShl (x y : RegIx) (s : State) : Out := shiftLeft x (shiftSource Config.qShiftVy x y s) s

/-- `RND` with the byte drawn (R131). -/
def randomAnd (x : RegIx) (nn draw : Byte) (s : State) : Out :=
  proceed { s.setV x (draw &&& nn) with draws := s.draws + 1 }

/-- `RND Vx,byte` (R131): the byte drawn is free at every execution (notes/assumptions/5.md). -/
def execRnd (x : RegIx) (nn : Byte) (s : State) : Out := randomAnd x nn (Config.randomByte s.draws) s

end Sys2Proof.Machine
end

