-- ==== Sys2Proof/Machine/Control.lean ====
section
/-! DEFINITION. The control transfer instructions (spec/40_control_transfer.md). -/

namespace Sys2Proof.Machine

/-- `JP addr` (R101). -/
def execJp (nnn : Addr12) (s : State) : Out := goTo (zext16 nnn) s

/-- `CALL addr` (R102): the address after the `CALL` is pushed; fatal at the 17th entry. -/
def execCall (nnn : Addr12) (s : State) : Out :=
  match s.push (s.pc + 2) with
  | some t => goTo (zext16 nnn) t
  | none => fatal .stackOverflow s

/-- `RET` (R103): `pc` is the popped value as it is; fatal on an empty stack. -/
def execRet (s : State) : Out :=
  match s.pop with
  | some (target, t) => goTo target t
  | none => fatal .stackUnderflow s

/-- `JP V0,addr` (R104). -/
def execJpV0 (nnn : Addr12) (s : State) : Out := goTo (zext16 nnn + zextByte (s.getV 0)) s

/-- `SE Vx,byte` (R105). -/
def execSeImm (x : RegIx) (nn : Byte) (s : State) : Out := skipIf (s.getV x == nn) s

/-- `SNE Vx,byte` (R106). -/
def execSneImm (x : RegIx) (nn : Byte) (s : State) : Out := skipIf (s.getV x != nn) s

/-- `SE Vx,Vy` (R107). -/
def execSeReg (x y : RegIx) (s : State) : Out := skipIf (s.getV x == s.getV y) s

/-- `SNE Vx,Vy` (R108). -/
def execSneReg (x y : RegIx) (s : State) : Out := skipIf (s.getV x != s.getV y) s

end Sys2Proof.Machine
end

