-- ==== Sys2Proof/Machine/Display.lean ====
section
/-! DEFINITION. The framebuffer's accessors (spec/10_state.md R27) and the display instructions
(spec/43_display.md). -/

namespace Sys2Proof.Machine

/-- `fb[y][x]` (R27). -/
def Framebuffer.pixel (fb : Framebuffer) (x : Fin 64) (y : Fin 32) : Bool := fb[y][x]

/-- `fb[y][x] <- b` (R27). -/
def Framebuffer.setPixel (fb : Framebuffer) (x : Fin 64) (y : Fin 32) (b : Bool) : Framebuffer :=
  fb.set y.val (fb[y].set x.val b x.isLt) y.isLt

/-- All pixels off (R170). -/
def Framebuffer.clear : Framebuffer := Vector.replicate 32 (Vector.replicate 64 false)

/-- A drawing in progress: the framebuffer, and whether a lit pixel was turned off (R171 `collision`). -/
structure Drawing where
  fb : Framebuffer
  collision : Bool
deriving DecidableEq, Repr

/-- A column reduced to the screen, `mod 64` (R171). -/
def wrapX (px : Nat) : Fin 64 := ⟨px % 64, Nat.mod_lt px (by decide)⟩

/-- A row reduced to the screen, `mod 32` (R171). -/
def wrapY (py : Nat) : Fin 32 := ⟨py % 32, Nat.mod_lt py (by decide)⟩

/-- One lit sprite pixel at an unreduced position (R171): dropped past the right or bottom edge under `Q_CLIP`, else
wrapped and drawn by XOR. -/
def Drawing.plot (clip : Bool) (px py : Nat) (d : Drawing) : Drawing :=
  if clip && (decide (63 < px) || decide (31 < py)) then d
  else
    { fb := d.fb.setPixel (wrapX px) (wrapY py) (!d.fb.pixel (wrapX px) (wrapY py)),
      collision := d.collision || d.fb.pixel (wrapX px) (wrapY py) }

/-- The columns of a sprite row, left to right (R171). -/
def spriteColumns : List Nat := [0, 1, 2, 3, 4, 5, 6, 7]

/-- Does sprite column `c` of a row byte hold a lit pixel? Bit 7 is the leftmost (R171). -/
def spriteBit (b : Byte) (c : Nat) : Bool := b.getLsbD (7 - c)

/-- One row of a sprite (R171). -/
def Drawing.row (clip : Bool) (x0 py : Nat) (b : Byte) (d : Drawing) : Drawing :=
  spriteColumns.foldl (fun e c => if spriteBit b c then e.plot clip (x0 + c) py else e) d

/-- The rows of a sprite, top to bottom (R171). -/
def Drawing.rows (clip : Bool) (x0 : Nat) : Nat → List Byte → Drawing → Drawing
  | _, [], d => d
  | py, b :: bs, d => Drawing.rows clip x0 (py + 1) bs (d.row clip x0 py b)

/-- What `DRW` draws: the sprite at `I` at the origin the operands give, on the present framebuffer (R171). -/
def State.drawing (clip : Bool) (x y : RegIx) (n : Nat) (s : State) : Drawing :=
  Drawing.rows clip (originX (s.getV x)) (originY (s.getV y)) (s.spriteRows n) ⟨s.fb, false⟩

/-- `CLS` (R170). -/
def execCls (s : State) : Out := proceed { s with fb := Framebuffer.clear }

/-- `DRW` under a setting of `Q_CLIP` (R171): VF is written last. -/
def drawSprite (clip : Bool) (x y : RegIx) (n : Nat) (s : State) : Out :=
  let d := s.drawing clip x y n
  proceed ({ s with fb := d.fb }.setV vf (flagByte d.collision))

/-- `DRW Vx,Vy,nibble` (R171). -/
def execDrw (x y : RegIx) (n : Nat) (s : State) : Out := drawSprite Config.qClip x y n s

end Sys2Proof.Machine
end

