-- ==== Sys2Proof/Machine/IndexMemory.lean ====
section
/-! DEFINITION. The index register and memory instructions (spec/42_index_memory.md). -/

namespace Sys2Proof.Machine

/-- `LD I,addr` (R150). -/
def execLdI (nnn : Addr12) (s : State) : Out := proceed { s with I := zext16 nnn }

/-- `ADD I,Vx` (R151): 16 bits are kept and VF is not written. -/
def execAddI (x : RegIx) (s : State) : Out := proceed { s with I := s.I + zextByte (s.getV x) }

/-- `LD F,Vx` (R152). -/
def execLdF (x : RegIx) (s : State) : Out := proceed { s with I := glyphAddr (s.getV x) }

/-- `LD B,Vx` (R153): `I` is unchanged. -/
def execLdB (x : RegIx) (s : State) : Out := proceed (s.storeBytes s.I.toNat (decimalDigits (s.getV x)))

/-- `LD [I],Vx` under a setting of `Q_MEM_INC_I` (R154). -/
def dumpTo (memIncI : Bool) (x : RegIx) (s : State) : Out :=
  proceed { s.dumpRegs s.I.toNat (regsUpTo x) with I := indexAfter memIncI x s.I }

/-- `LD [I],Vx` (R154). -/
def execLdMemVx (x : RegIx) (s : State) : Out := dumpTo Config.qMemIncI x s

/-- `LD Vx,[I]` under a setting of `Q_MEM_INC_I` (R155). -/
def loadFrom (memIncI : Bool) (x : RegIx) (s : State) : Out :=
  proceed { s.loadRegs s.I.toNat (regsUpTo x) with I := indexAfter memIncI x s.I }

/-- `LD Vx,[I]` (R155). -/
def execLdVxMem (x : RegIx) (s : State) : Out := loadFrom Config.qMemIncI x s

end Sys2Proof.Machine
end

