-- ==== Sys2Proof/Machine/KeypadTimers.lean ====
section
/-! DEFINITION. The keypad and timer instructions (spec/44_keypad_timers.md). -/

namespace Sys2Proof.Machine

/-- `SKP Vx` (R180): the level of the key the low nibble selects. -/
def execSkp (x : RegIx) (s : State) : Out := skipIf s.key[lowNibble (s.getV x)] s

/-- `SKNP Vx` (R181). -/
def execSknp (x : RegIx) (s : State) : Out := skipIf (!s.key[lowNibble (s.getV x)]) s

/-- `LD Vx,K` (R182): the first execution samples the keypad and blocks; a waiting one completes at the lowest fresh
key, else samples and blocks. A halted machine executes nothing (R203; `step` never gets here,
notes/assumptions/13.md). -/
def execLdVxK (x : RegIx) (s : State) : Out :=
  match s.run with
  | .running => block s
  | .waiting =>
    match lowestFresh s.key s.keyPrev with
    | some k => proceed { s.setV x (BitVec.ofNat 8 k.val) with run := .running }
    | none => block s
  | .halted r => stayHalted r s

/-- `LD Vx,DT` (R183). -/
def execLdVxDT (x : RegIx) (s : State) : Out := proceed (s.setV x s.DT)

/-- `LD DT,Vx` (R184). -/
def execLdDTVx (x : RegIx) (s : State) : Out := proceed { s with DT := s.getV x }

/-- `LD ST,Vx` (R185). -/
def execLdSTVx (x : RegIx) (s : State) : Out := proceed { s with ST := s.getV x }

end Sys2Proof.Machine
end

