-- ==== Sys2Proof/Machine/Step.lean ====
section
/-! DEFINITION. One step of the machine (spec/60_exceptions.md R201), and a word placed where the next step fetches. -/

namespace Sys2Proof.Machine

/-- `Step()` (R201): each test only if the earlier ones passed. -/
def step (s : State) : Host.Outcome State Fault Refusal :=
  match s.run with
  | .halted r => stayHalted r s
  | _ =>
    if s.canFetch then
      match decode s.fetchWord with
      | .known i => exec i s
      | .unknown w => reportUnknown w s
    else fatal .fetchOutOfBounds s

/-- Can both bytes of an instruction at this `pc` be stored: inside memory and outside the font ROM? -/
def canHold (pc : Word) : Bool :=
  decide (pc.toNat ≤ Config.memSize - 2) && !isFont pc.toNat && !isFont (pc.toNat + 1)

/-- `s` with the instruction whose bits are `w` (`nbits` of them given) stored where `step` fetches next, high byte
first (R54, R55). Only where the fetch needs it is more changed: a halted machine runs again, and a `pc` whose bytes
cannot be stored moves to `PROG_BASE` (notes/assumptions/15.md). -/
def State.withFetchWord (s : State) (nbits w : Nat) : State :=
  let word : Word := BitVec.ofNat 16 (w % 2 ^ nbits)
  let pc : Word := if canHold s.pc then s.pc else BitVec.ofNat 16 Config.progBase
  let run : RunState := match s.run with
    | .halted _ => .running
    | r => r
  State.storeBytes pc.toNat [hiByte word, loByte word] { s with pc := pc, run := run }

end Sys2Proof.Machine
end

