-- ==== Sys2Proof/Machine/HostOps.lean ====
section
/-! DEFINITION. The host interface (spec/60_exceptions.md R211 to R214, R217; spec/70_reset_and_hazards.md R240, R241):
reset with an image, the timer tick, the keypad write, the two reads, and the atomic transitions the host may take in
any order and number. -/

namespace Sys2Proof.Machine

/-! ### Timers and keypad -/

/-- A timer counts down and stays at zero (R26, R211). -/
def countDown (t : Byte) : Byte := BitVec.ofNat 8 (t.toNat - 1)

/-- `tick_timers()` (R211): DT and ST and nothing else, in every run state. -/
def State.tickTimers (s : State) : State := { s with DT := countDown s.DT, ST := countDown s.ST }

/-- `set_key(index, pressed)` (R213): writes only `key`. -/
def State.setKey (s : State) (k : KeyIx) (pressed : Bool) : State := { s with key := s.key.set k.val pressed k.isLt }

/-! ### Reads -/

/-- `framebuffer()` (R213). -/
def State.framebuffer (s : State) : Framebuffer := s.fb

/-- `sound_timer()` (R212, R213). -/
def State.soundTimer (s : State) : Byte := s.ST

/-- `sound_active = (ST != 0)` (R212). -/
def State.soundActive (s : State) : Bool := s.ST != 0

/-! ### Reset -/

/-- What `reset(image)` answers (R213, R240). -/
inductive LoadResult where
  /-- the machine is reset and the image is loaded -/
  | ok
  /-- `LoadError::TooLarge`: nothing changes (R241) -/
  | tooLarge
deriving DecidableEq, Repr

/-- An image from an address on, as listed memory cells: its nonzero bytes (R62, R240). -/
def imageCells : Nat → List Byte → Memory
  | _, [] => []
  | a, b :: bs => if b = 0 then imageCells (a + 1) bs else (a, b) :: imageCells (a + 1) bs

/-- `Reset(image)` (R240): refused unchanged when the image is too long, else every piece of state takes its reset
value with the image at `PROG_BASE`. The model's own counter of draws goes on, so that the bytes drawn after a reset
stay free (notes/assumptions/16.md). -/
def State.hostReset (image : List Byte) (s : State) : LoadResult × State :=
  if imageFits image then
    (.ok, { State.reset with mem := imageCells Config.progBase image, draws := s.draws })
  else (.tooLarge, s)

/-! ### Transitions -/

/-- The host operations that change state (R213, R214). -/
inductive HostOp where
  /-- `reset(image)` -/
  | reset (image : List Byte)
  /-- `step()` -/
  | step
  /-- `tick_timers()` -/
  | tickTimers
  /-- `set_key(index, pressed)` -/
  | setKey (k : KeyIx) (pressed : Bool)
deriving DecidableEq, Repr

/-- One atomic transition (R214). -/
def transition (o : HostOp) (s : State) : Out :=
  match o with
  | .reset image => .next (s.hostReset image).2
  | .step => Sys2Proof.Machine.step s
  | .tickTimers => .next s.tickTimers
  | .setKey k p => .next (s.setKey k p)

/-- A sequence of transitions, in the order the host chose (R214). -/
def runOps : List HostOp → State → Out
  | [], s => .next s
  | o :: os, s =>
    match transition o s with
    | .next t => runOps os t
    | .fault r => .fault r
    | .refused r => .refused r

/-! ### Numeric codes -/

/-- The number a hardware realisation gives a fatal reason (R217). -/
def FatalReason.code : FatalReason → Nat
  | .fetchOutOfBounds => 0
  | .stackOverflow => 1
  | .stackUnderflow => 2

/-- The number a hardware realisation gives a step result (R217). -/
def StepResult.code : StepResult → Nat
  | .continued => 0
  | .blocked => 1
  | .unknownOpcode _ => 2
  | .fatal _ => 3

end Sys2Proof.Machine
end

