-- ==== Sys2Proof/Safety.lean ====
section
/-! DEFINITION. The terms the claims use: the invariant of the machine's states (spec/10_state.md R24, R25, R29, R33),
frames (which pieces of state an instruction may change), the registers an instruction names, the pixels a sprite covers
(spec/43_display.md R171), the states that differ only where nothing reads (R24, R29), and the suggested final state
(spec/70_reset_and_hazards.md R247). -/

namespace Sys2Proof.Machine

/-! ### The invariant -/

/-- While the machine waits, the word at `pc` is an `LD Vx,K` (R29). -/
def State.WaitsAtKeyWord (s : State) : Prop :=
  s.run = .waiting → s.pc.toNat ≤ 4094 ∧ ∃ x, decode s.fetchWord = .known (.ldVxK x)

/-- The invariant: memory keeps its canonical form, `pc` is at most 0x10FE (R25), every live return address is at most
0x1000 (R103), and a wait stands at its instruction (R29). That the stack's depth never exceeds 16 (R24, R33) is the
type of `sp`. -/
structure State.Inv (s : State) : Prop where
  mem_wf : s.mem.wf = true
  pc_le : s.pc.toNat ≤ 0x10FE
  stack_le : ∀ k : Fin 16, k.val < s.sp.val → s.stack[k].toNat ≤ 0x1000
  waits : s.WaitsAtKeyWord

/-! ### Frames -/

/-- Nothing changed but `pc` (and the answer to the host). -/
def OnlyPc (s t : State) : Prop := t = { s with pc := t.pc, result := t.result }

/-- Nothing changed but V registers, `pc` (and the answer to the host). -/
def OnlyRegsPc (s t : State) : Prop := t = { s with V := t.V, pc := t.pc, result := t.result }

/-- Every register outside the given ones keeps its value. -/
def RegsKept (s t : State) (changed : RegIx → Prop) : Prop := ∀ k, ¬ changed k → t.getV k = s.getV k

/-- An instruction completed in the ordinary way: result `Continue`, `pc` past its word (R9, R200). -/
def EndsNormally (s t : State) : Prop := t.result = some .continued ∧ t.pc = s.pc + 2

/-- Every byte of memory outside the `n` bytes from `base` on reads as before, and so does every font byte. -/
def MemKeptOutside (s t : State) (base n : Nat) : Prop :=
  ∀ a, ((∀ k, k < n → a % 4096 ≠ (base + k) % 4096) ∨ isFont (a % 4096) = true) → t.memRead a = s.memRead a

/-- The registers an instruction may write: its named destinations, and VF where R22 makes the instruction a flag
writer. -/
def MayWriteReg (i : Instr) (k : RegIx) : Prop :=
  match i with
  | .ldImm x _ | .addImm x _ | .rnd x _ => k = x
  | .ldReg x _ | .orReg x _ | .andReg x _ | .xorReg x _ => k = x
  | .addReg x _ | .sub x _ | .subn x _ | .shr x _ | .shl x _ => k = x ∨ k = vf
  | .drw _ _ _ => k = vf
  | .ldVxDT x | .ldVxK x => k = x
  | .ldVxMem x => k.val ≤ x.val
  | .cls | .ret | .jp _ | .call _ | .jpV0 _ | .ldI _ => False
  | .seImm _ _ | .sneImm _ _ | .seReg _ _ | .sneReg _ _ | .skp _ | .sknp _ => False
  | .ldDTVx _ | .ldSTVx _ | .addI _ | .ldF _ | .ldB _ | .ldMemVx _ => False

/-- The instructions that write VF as a flag (R22). -/
def WritesFlag (i : Instr) : Prop :=
  match i with
  | .addReg _ _ | .sub _ _ | .subn _ _ | .shr _ _ | .shl _ _ | .drw _ _ _ => True
  | _ => False

/-! ### Sprites -/

/-- Under a setting of `Q_CLIP`, the sprite of `n` rows at `I`, drawn at the origin V[X], V[Y], has a lit pixel that
lands on column `px` and row `py` (R171). -/
def SpriteCovers (clip : Bool) (s : State) (x y : RegIx) (n : Nat) (px : Fin 64) (py : Fin 32) : Prop :=
  ∃ r c : Nat, r < n ∧ c < 8 ∧ (s.memRead (s.I.toNat + r)).getLsbD (7 - c) = true ∧
    if clip then (s.getV x).toNat % 64 + c = px.val ∧ (s.getV y).toNat % 32 + r = py.val
    else ((s.getV x).toNat % 64 + c) % 64 = px.val ∧ ((s.getV y).toNat % 32 + r) % 32 = py.val

/-! ### The keypad -/

/-- Key `k` is fresh: down now, and up at the previous sample of the wait (R182). -/
def FreshKey (s : State) (k : KeyIx) : Prop := s.key[k] = true ∧ s.keyPrev[k] = false

/-! ### State nothing reads -/

/-- Two states that agree but in stack entries at or above `sp`, which "have no meaning and are never read" (R24), and,
outside a wait, in `key_prev`, which "has meaning only while `run = Waiting`" (R29). -/
def SameButUnread (s u : State) : Prop :=
  u = { s with stack := u.stack, keyPrev := u.keyPrev } ∧
    (∀ k : Fin 16, k.val < s.sp.val → u.stack[k] = s.stack[k]) ∧ (s.run = .waiting → u.keyPrev = s.keyPrev)

/-! ### The end of a run -/

/-- The suggested final state (R247): running, at a jump to itself. -/
def State.Spinning (s : State) : Prop :=
  s.run = .running ∧ s.pc.toNat ≤ 4094 ∧ ∃ nnn, decode s.fetchWord = .known (.jp nnn) ∧ zext16 nnn = s.pc

end Sys2Proof.Machine
end

