-- ==== Sys2Proof/Certificates/Slice0/Obligations.lean ====
section
/-! DEFINITION. The statements for the provers, from the numbered rules of spec/. Where a clause rests on one of the
spec's own decisions (spec/92_eei_decisions.md D<n>) or on its general knowledge (spec/93_implementation_defined.md
G<n>), or on a choice of the model's own, the docstring names it. -/

open Sys2Proof Sys2Proof.Machine

/-! ### Encoding -/

/-- Decoding the word, or the bytes, of a well-formed instruction gives it back with every operand (R80 to R85). The bit
patterns and field positions are the spec's general knowledge (G1, G2). -/
def Obligations.DecodeInvertsEncode : Prop :=
  ∀ i : Instr, i.wellFormed = true →
    decode (encode i) = .known i ∧ ∀ rest, decodeBytes (encodeBytes i ++ rest) = .instr i rest

/-- Every bit of a word that decodes is fixed or a field of the instruction: encoding what was decoded gives the word
back (R85, R87). -/
def Obligations.EncodeInvertsDecode : Prop :=
  ∀ (w : Word) (i : Instr), decode w = .known i → i.wellFormed = true ∧ encode i = w

/-- The decode function of R85 is the opcode map of R84: it answers an instruction exactly when a row selects the word,
and then that instruction's row, so no word is selected by two rows. The masks and matches are the spec's (G1). -/
def Obligations.DecodeFollowsTheOpcodeMap : Prop :=
  opcodeTable.length = 34 ∧ opcodeTable.Nodup ∧
  ∀ w : Word,
    (∀ i, decode w = .known i → i.row ∈ opcodeTable ∧ i.row.selects w = true) ∧
    (∀ r ∈ opcodeTable, r.selects w = true → ∃ i, decode w = .known i ∧ i.row = r)

/-- The unknown words are exactly those of R86's table, 21582 of the 65536. That `0NNN` is unknown is the spec's
decision D10, and that `DXY0` is an instruction its decision D24. -/
def Obligations.UnknownWordsAreExactly : Prop :=
  (∀ w u : Word, decode w = .unknown u → u = w) ∧
  (∀ w : Word, decode w = .unknown w ↔
    (w.toNat / 4096 = 0 ∧ w ≠ 0x00E0 ∧ w ≠ 0x00EE) ∨
    (w.toNat / 4096 = 5 ∧ w.toNat % 16 ≠ 0) ∨
    (w.toNat / 4096 = 8 ∧ w.toNat % 16 ∈ [8, 9, 10, 11, 12, 13, 15]) ∨
    (w.toNat / 4096 = 9 ∧ w.toNat % 16 ≠ 0) ∨
    (w.toNat / 4096 = 14 ∧ w.toNat % 256 ∉ [0x9E, 0xA1]) ∨
    (w.toNat / 4096 = 15 ∧ w.toNat % 256 ∉ [0x07, 0x0A, 0x15, 0x18, 0x1E, 0x29, 0x33, 0x55, 0x65])) ∧
  (List.range 65536).countP
    (fun n => decide (decode (BitVec.ofNat 16 n) = .unknown (BitVec.ofNat 16 n))) = 21582

/-- Words written out from the patterns of R84 decode to the instructions they stand for. A sanity statement. -/
def Obligations.DecodesTheWrittenWords : Prop :=
  decode 0x00E0 = .known .cls ∧ decode 0x2210 = .known (.call 0x210) ∧ decode 0x6A02 = .known (.ldImm 10 0x02) ∧
  decode 0x8AB4 = .known (.addReg 10 11) ∧ decode 0xF233 = .known (.ldB 2) ∧ decode 0xD125 = .known (.drw 1 2 5) ∧
  decode 0xE39E = .known (.skp 3) ∧ decode 0x8AB8 = .unknown 0x8AB8

/-! ### The step -/

/-- A step of a machine that is not halted, with `pc` ≤ 4094, executes the instruction that the two bytes at `pc`, high
byte first, decode to (R54, R201); nothing is added around `exec`. -/
def Obligations.StepRunsTheDecodedInstruction : Prop :=
  ∀ (s : State) (i : Instr), (∀ r, s.run ≠ .halted r) → s.pc.toNat ≤ 4094 →
    decode (wordOfBytes (s.memRead s.pc.toNat) (s.memRead (s.pc.toNat + 1))) = .known i → step s = exec i s

/-- The step algorithm of R201: the halted test, the bounds test, the unknown word, then the instruction, and what each
answers. -/
def Obligations.StepFollowsTheStepAlgorithm : Prop :=
  ∀ s : State,
    (∀ r, s.run = .halted r → step s = .next { s with result := some (.fatal r) }) ∧
    ((∀ r, s.run ≠ .halted r) →
      (4094 < s.pc.toNat →
        step s = .next { s with run := .halted .fetchOutOfBounds, result := some (.fatal .fetchOutOfBounds) }) ∧
      (s.pc.toNat ≤ 4094 →
        (∀ w, decode (wordOfBytes (s.memRead s.pc.toNat) (s.memRead (s.pc.toNat + 1))) = .unknown w →
          step s = .next { s with pc := s.pc + 2, result := some (.unknownOpcode w) }) ∧
        (∀ i, decode (wordOfBytes (s.memRead s.pc.toNat) (s.memRead (s.pc.toNat + 1))) = .known i →
          step s = exec i s)) ∧
      (∀ nnn, s.sp.val = 16 → exec (.call nnn) s =
        .next { s with run := .halted .stackOverflow, result := some (.fatal .stackOverflow) }) ∧
      (∀ nnn, s.sp.val ≠ 16 → ∃ t, exec (.call nnn) s = .next t ∧ t.result = some .continued) ∧
      (s.sp.val = 0 → exec .ret s =
        .next { s with run := .halted .stackUnderflow, result := some (.fatal .stackUnderflow) }) ∧
      (s.sp.val ≠ 0 → ∃ t, exec .ret s = .next t ∧ t.result = some .continued) ∧
      (∀ x, ∃ t, exec (.ldVxK x) s = .next t ∧ (t.result = some .blocked ∨ t.result = some .continued)) ∧
      (∀ i, (∀ nnn, i ≠ .call nnn) → i ≠ .ret → (∀ x, i ≠ .ldVxK x) →
        ∃ t, exec i s = .next t ∧ t.result = some .continued))

/-- Every step answers exactly one of the four results of R200, with the state change its table gives; an unknown word
changes nothing but `pc` (R204). -/
def Obligations.EveryStepAnswersOneResult : Prop :=
  ∀ s : State, ∃ (t : State) (r : StepResult), step s = .next t ∧ t.result = some r ∧
    (r = .blocked → t = { s with run := .waiting, keyPrev := s.key, result := some .blocked } ∧
      ∃ x, decode s.fetchWord = .known (.ldVxK x)) ∧
    (∀ w, r = .unknownOpcode w → t = { s with pc := s.pc + 2, result := some (.unknownOpcode w) } ∧
      w = s.fetchWord ∧ decode w = .unknown w ∧ s.pc.toNat ≤ 4094) ∧
    (∀ why, r = .fatal why → t = { s with run := .halted why, result := some (.fatal why) }) ∧
    (r = .continued → ∃ i, decode s.fetchWord = .known i ∧ exec i s = .next t ∧ s.pc.toNat ≤ 4094)

/-- A halted machine answers the same `Fatal(reason)` at every later step and nothing changes; over any sequence of the
host's operations but `reset` it stays halted, and only the timers and the keys, which the host drives, can change
(R203; the spec's decisions D19, D28). -/
def Obligations.FatalIsForGoodUntilReset : Prop :=
  ∀ (s : State) (r : FatalReason), s.run = .halted r →
    (∀ k, Host.Core.run Sys2Proof.core (k + 1) s = .next { s with result := some (.fatal r) }) ∧
    (∀ ops : List HostOp, (∀ image, HostOp.reset image ∉ ops) →
      ∃ t, runOps ops s = .next t ∧
        t = { s with DT := t.DT, ST := t.ST, key := t.key, result := t.result })

/-- No instruction stops the model: every instruction answers a next state in every state, and in a state that is not
halted its result is fatal only for `CALL` at depth 16 and `RET` at depth 0 (R202: "There is no other exception"). That
a fatal event is a next state is the model's reading (notes/assumptions/2.md, DEDUCED); what `exec` does in a halted
state, where no step performs it, is the model's choice (notes/assumptions/13.md). -/
def Obligations.EveryInstructionAnswersANextState : Prop :=
  ∀ (i : Instr) (s : State), ∃ t r, exec i s = .next t ∧ t.result = some r ∧ (∀ w, r ≠ .unknownOpcode w) ∧
    ((∀ h, s.run ≠ .halted h) → ∀ why, r = .fatal why →
      (why = .stackOverflow ∧ s.sp.val = 16 ∧ ∃ nnn, i = .call nnn) ∨
      (why = .stackUnderflow ∧ s.sp.val = 0 ∧ i = .ret))

/-! ### Control transfer -/

/-- `JP addr` sets `pc` to the address, `JP V0,addr` to the address plus V0, unreduced; nothing else changes (R101,
R104; `JP V0` is general knowledge G9 and decision D13). -/
def Obligations.JumpsSetThePcAlone : Prop :=
  ∀ (s : State) (nnn : Addr12),
    (∃ t, exec (.jp nnn) s = .next t ∧ t.result = some .continued ∧ t.pc.toNat = nnn.toNat ∧ OnlyPc s t) ∧
    (∃ t, exec (.jpV0 nnn) s = .next t ∧ t.result = some .continued ∧
      t.pc.toNat = nnn.toNat + (s.getV 0).toNat ∧ OnlyPc s t)

/-- The compare-and-skip instructions advance `pc` by exactly 4 when the condition holds and by exactly 2 otherwise,
and change nothing else (R105 to R109). -/
def Obligations.CompareSkipsAdvanceByFourOrTwo : Prop :=
  ∀ (s : State) (x y : RegIx) (nn : Byte),
    (∃ t, exec (.seImm x nn) s = .next t ∧ t.result = some .continued ∧
      t.pc = s.pc + (if s.getV x = nn then 4 else 2) ∧ OnlyPc s t) ∧
    (∃ t, exec (.sneImm x nn) s = .next t ∧ t.result = some .continued ∧
      t.pc = s.pc + (if s.getV x ≠ nn then 4 else 2) ∧ OnlyPc s t) ∧
    (∃ t, exec (.seReg x y) s = .next t ∧ t.result = some .continued ∧
      t.pc = s.pc + (if s.getV x = s.getV y then 4 else 2) ∧ OnlyPc s t) ∧
    (∃ t, exec (.sneReg x y) s = .next t ∧ t.result = some .continued ∧
      t.pc = s.pc + (if s.getV x ≠ s.getV y then 4 else 2) ∧ OnlyPc s t)

/-- `CALL` with fewer than 16 entries pushes the address after it (the spec's decision D18) and jumps; every other
entry, and everything else, is unchanged (R102, R24). -/
def Obligations.CallPushesTheReturnAddress : Prop :=
  ∀ (s : State) (nnn : Addr12), s.sp.val < 16 →
    ∃ t, exec (.call nnn) s = .next t ∧ t.result = some .continued ∧ t.pc.toNat = nnn.toNat ∧
      t.sp.val = s.sp.val + 1 ∧
      (∀ k : Fin 16, k.val = s.sp.val → t.stack[k] = s.pc + 2) ∧
      (∀ k : Fin 16, k.val ≠ s.sp.val → t.stack[k] = s.stack[k]) ∧
      t = { s with stack := t.stack, sp := t.sp, pc := t.pc, result := t.result }

/-- `RET` with a return address sets `pc` to the most recent one, as it is, and removes it; with none it is fatal
(R103). That the fatal step changes `run` alone is the spec's decision D19, and that it is a next state the model's
reading (notes/assumptions/2.md, DEDUCED). -/
def Obligations.ReturnPopsTheMostRecentCall : Prop :=
  ∀ s : State,
    (0 < s.sp.val → ∃ t, exec .ret s = .next t ∧ t.result = some .continued ∧ t.sp.val + 1 = s.sp.val ∧
      (∀ k : Fin 16, k.val + 1 = s.sp.val → t.pc = s.stack[k]) ∧
      t = { s with sp := t.sp, pc := t.pc, result := t.result }) ∧
    (s.sp.val = 0 → exec .ret s =
      .next { s with run := .halted .stackUnderflow, result := some (.fatal .stackUnderflow) })

/-- A subroutine that leaves the stack as the `CALL` left it returns to the instruction after the `CALL`, with the
caller's depth and return addresses (R102, R103, D18). -/
def Obligations.CallThenReturnResumesTheCaller : Prop :=
  ∀ (s : State) (nnn : Addr12), s.sp.val < 16 →
    ∃ t, exec (.call nnn) s = .next t ∧
      ∀ u : State, u.stack = t.stack → u.sp = t.sp →
        ∃ v, exec .ret u = .next v ∧ v.pc = s.pc + 2 ∧ v.sp = s.sp ∧
          ∀ k : Fin 16, k.val < s.sp.val → v.stack[k] = s.stack[k]

/-! ### ALU -/

/-- The loads of a V register from an immediate, a register and the delay timer (R120, R122, R183): the destination
receives the value, every other register, VF among them, is unchanged, and nothing else changes. `LD Vx,Vy` and
`LD Vx,DT` are general knowledge (G6, G11). -/
def Obligations.RegisterLoadsWriteOnlyTheDestination : Prop :=
  ∀ (s : State) (x y : RegIx) (nn : Byte),
    (∃ t, exec (.ldImm x nn) s = .next t ∧ EndsNormally s t ∧ t.getV x = nn ∧ RegsKept s t (· = x) ∧
      OnlyRegsPc s t) ∧
    (∃ t, exec (.ldReg x y) s = .next t ∧ EndsNormally s t ∧ t.getV x = s.getV y ∧ RegsKept s t (· = x) ∧
      OnlyRegsPc s t) ∧
    (∃ t, exec (.ldVxDT x) s = .next t ∧ EndsNormally s t ∧ t.getV x = s.DT ∧ RegsKept s t (· = x) ∧
      OnlyRegsPc s t)

/-- `ADD Vx,byte` and the bitwise operations write the destination alone; VF is not a flag of theirs (R121, R123 to
R125; general knowledge G5, decisions D11, D12). The bits of a bitwise result are those of the operands, bit by bit. -/
def Obligations.AddImmediateAndBitwiseLeaveTheFlag : Prop :=
  ∀ (s : State) (x y : RegIx) (nn : Byte),
    (∃ t, exec (.addImm x nn) s = .next t ∧ EndsNormally s t ∧
      (t.getV x).toNat = ((s.getV x).toNat + nn.toNat) % 256 ∧ RegsKept s t (· = x) ∧ OnlyRegsPc s t) ∧
    (∃ t, exec (.orReg x y) s = .next t ∧ EndsNormally s t ∧
      (∀ j, (t.getV x).getLsbD j = ((s.getV x).getLsbD j || (s.getV y).getLsbD j)) ∧ RegsKept s t (· = x) ∧
      OnlyRegsPc s t) ∧
    (∃ t, exec (.andReg x y) s = .next t ∧ EndsNormally s t ∧
      (∀ j, (t.getV x).getLsbD j = ((s.getV x).getLsbD j && (s.getV y).getLsbD j)) ∧ RegsKept s t (· = x) ∧
      OnlyRegsPc s t) ∧
    (∃ t, exec (.xorReg x y) s = .next t ∧ EndsNormally s t ∧
      (∀ j, (t.getV x).getLsbD j = ((s.getV x).getLsbD j ^^ (s.getV y).getLsbD j)) ∧ RegsKept s t (· = x) ∧
      OnlyRegsPc s t)

/-- `ADD Vx,Vy`: the sum modulo 256, and then the carry in VF, for every X and Y, VF among them (R126, R133). -/
def Obligations.AddRegisterSumAndCarry : Prop :=
  ∀ (s : State) (x y : RegIx),
    ∃ t, exec (.addReg x y) s = .next t ∧ EndsNormally s t ∧
      (x ≠ 15 → (t.getV x).toNat = ((s.getV x).toNat + (s.getV y).toNat) % 256) ∧
      (t.getV 15).toNat = (if (s.getV x).toNat + (s.getV y).toNat > 255 then 1 else 0) ∧
      RegsKept s t (fun k => k = x ∨ k = 15) ∧ OnlyRegsPc s t

/-- `SUB Vx,Vy`: the difference modulo 256, and then VF = 1 iff V[X] ≥ V[Y], for every X and Y (R127, R133). -/
def Obligations.SubtractDifferenceAndNoBorrow : Prop :=
  ∀ (s : State) (x y : RegIx),
    ∃ t, exec (.sub x y) s = .next t ∧ EndsNormally s t ∧
      (x ≠ 15 → ((t.getV x).toNat : Int) = ((s.getV x).toNat - (s.getV y).toNat : Int) % 256) ∧
      (t.getV 15).toNat = (if (s.getV x).toNat ≥ (s.getV y).toNat then 1 else 0) ∧
      RegsKept s t (fun k => k = x ∨ k = 15) ∧ OnlyRegsPc s t

/-- `SUBN Vx,Vy`: the reversed difference, and then VF = 1 iff V[Y] ≥ V[X] (R129, R133; general knowledge G7). -/
def Obligations.ReverseSubtractDifferenceAndNoBorrow : Prop :=
  ∀ (s : State) (x y : RegIx),
    ∃ t, exec (.subn x y) s = .next t ∧ EndsNormally s t ∧
      (x ≠ 15 → ((t.getV x).toNat : Int) = ((s.getV y).toNat - (s.getV x).toNat : Int) % 256) ∧
      (t.getV 15).toNat = (if (s.getV y).toNat ≥ (s.getV x).toNat then 1 else 0) ∧
      RegsKept s t (fun k => k = x ∨ k = 15) ∧ OnlyRegsPc s t

/-- `SHR` and `SHL` shift by one the source the quirk selects, and then VF is the bit shifted out (R128, R130, R133;
the two sides of the quirk are general knowledge G14). Holds for either setting of `Q_SHIFT_VY`. -/
def Obligations.ShiftsByOneAndTheBitShiftedOut : Prop :=
  ∀ (s : State) (x y : RegIx) (b : Byte), b = (if Config.qShiftVy then s.getV y else s.getV x) →
    (∃ t, exec (.shr x y) s = .next t ∧ EndsNormally s t ∧
      (x ≠ 15 → (t.getV x).toNat = b.toNat / 2) ∧ (t.getV 15).toNat = (if b.getLsbD 0 then 1 else 0) ∧
      RegsKept s t (fun k => k = x ∨ k = 15) ∧ OnlyRegsPc s t) ∧
    (∃ t, exec (.shl x y) s = .next t ∧ EndsNormally s t ∧
      (x ≠ 15 → (t.getV x).toNat = b.toNat * 2 % 256) ∧ (t.getV 15).toNat = (if b.getLsbD 7 then 1 else 0) ∧
      RegsKept s t (fun k => k = x ∨ k = 15) ∧ OnlyRegsPc s t)

/-- `RND` writes the byte drawn, ANDed with NN; every bit clear in NN is clear in the result, and each of the 256 bytes
is a draw the meaning takes (R131; general knowledge G10, decision D27). The stream of draws is the model's free value
(notes/assumptions/5.md); nothing is stated of a draw. -/
def Obligations.RandomIsTheFreeDrawUnderTheMask : Prop :=
  ∀ (s : State) (x : RegIx) (nn : Byte),
    exec (.rnd x nn) s = randomAnd x nn (Config.randomByte s.draws) s ∧
    (∃ t, exec (.rnd x nn) s = .next t ∧ EndsNormally s t ∧
      (∀ j, nn.getLsbD j = false → (t.getV x).getLsbD j = false) ∧ RegsKept s t (· = x) ∧
      t = { s with V := t.V, pc := t.pc, result := t.result, draws := s.draws + 1 }) ∧
    ∀ draw : Byte, ∃ t, randomAnd x nn draw s = .next t ∧
      ∀ j, (t.getV x).getLsbD j = (draw.getLsbD j && nn.getLsbD j)

/-! ### Index and memory -/

/-- `LD I,addr`, `ADD I,Vx` and `LD F,Vx` write `I` and nothing else: the address, the sum modulo 65536, the glyph the
low nibble selects (R150 to R152; general knowledge G8, G12, G13, decisions D1, D14, D15). -/
def Obligations.IndexWritesChangeOnlyTheIndex : Prop :=
  ∀ (s : State) (nnn : Addr12) (x : RegIx),
    (∃ t, exec (.ldI nnn) s = .next t ∧ EndsNormally s t ∧ t.I.toNat = nnn.toNat ∧
      t = { s with I := t.I, pc := t.pc, result := t.result }) ∧
    (∃ t, exec (.addI x) s = .next t ∧ EndsNormally s t ∧
      t.I.toNat = (s.I.toNat + (s.getV x).toNat) % 65536 ∧
      t = { s with I := t.I, pc := t.pc, result := t.result }) ∧
    (∃ t, exec (.ldF x) s = .next t ∧ EndsNormally s t ∧
      t.I.toNat = 0x050 + 5 * ((s.getV x).toNat % 16) ∧
      t = { s with I := t.I, pc := t.pc, result := t.result })

/-- After `LD F,Vx` the five bytes from `I` on are the glyph's rows in the font ROM, whatever was stored before, and a
store to any font address changes nothing (R52, R53, R152; font bytes general knowledge G3, decisions D1, D7, D15). -/
def Obligations.FontRomHoldsTheGlyphs : Prop :=
  fontBytes.length = 80 ∧
  (∀ (s : State) (x : RegIx), ∃ t, exec (.ldF x) s = .next t ∧
    ∀ r, r < 5 → t.memRead (t.I.toNat + r) = fontBytes.getD (5 * ((s.getV x).toNat % 16) + r) 0) ∧
  (∀ (s : State) (a : Nat) (b : Byte), 0x050 ≤ a % 4096 → a % 4096 ≤ 0x09F → s.memWrite a b = s)

/-- `LD B,Vx` stores the three decimal digits at `I`, `I + 1`, `I + 2`, each address modulo 4096, hundreds first; a digit
aimed at the font ROM is discarded, every other byte reads as before, and `I` and the registers are unchanged (R153,
R53; general knowledge G16, decision D7). Memory is in canonical form, which every step keeps (R50). -/
def Obligations.DecimalStoreWritesThreeDigits : Prop :=
  ∀ (s : State) (x : RegIx), s.mem.wf = true →
    ∃ t, exec (.ldB x) s = .next t ∧ EndsNormally s t ∧
      (isFont (s.I.toNat % 4096) = false → (t.memRead s.I.toNat).toNat = (s.getV x).toNat / 100) ∧
      (isFont ((s.I.toNat + 1) % 4096) = false →
        (t.memRead (s.I.toNat + 1)).toNat = (s.getV x).toNat / 10 % 10) ∧
      (isFont ((s.I.toNat + 2) % 4096) = false → (t.memRead (s.I.toNat + 2)).toNat = (s.getV x).toNat % 10) ∧
      MemKeptOutside s t s.I.toNat 3 ∧
      t = { s with mem := t.mem, pc := t.pc, result := t.result }

/-- `LD [I],Vx` stores V0..VX at `I`, `I + 1`, ..., each address modulo 4096, discards what is aimed at the font ROM,
leaves every other byte, and moves `I` by X + 1 under the quirk alone (R154, R53; general knowledge G15, decisions D7,
D25). Holds for either setting of `Q_MEM_INC_I`. -/
def Obligations.RegisterDumpStoresTheRange : Prop :=
  ∀ (s : State) (x : RegIx), s.mem.wf = true →
    ∃ t, exec (.ldMemVx x) s = .next t ∧ EndsNormally s t ∧
      (∀ k : RegIx, k.val ≤ x.val → isFont ((s.I.toNat + k.val) % 4096) = false →
        t.memRead (s.I.toNat + k.val) = s.getV k) ∧
      MemKeptOutside s t s.I.toNat (x.val + 1) ∧
      t.I.toNat = (if Config.qMemIncI then (s.I.toNat + x.val + 1) % 65536 else s.I.toNat) ∧
      t = { s with mem := t.mem, I := t.I, pc := t.pc, result := t.result }

/-- `LD Vx,[I]` loads V0..VX from `I`, `I + 1`, ..., each address modulo 4096, leaves the registers above X and all of
memory, and moves `I` by X + 1 under the quirk alone (R155; general knowledge G15, decision D25). -/
def Obligations.RegisterLoadReadsTheRange : Prop :=
  ∀ (s : State) (x : RegIx),
    ∃ t, exec (.ldVxMem x) s = .next t ∧ EndsNormally s t ∧
      (∀ k : RegIx, k.val ≤ x.val → t.getV k = s.memRead ((s.I.toNat + k.val) % 4096)) ∧
      RegsKept s t (fun k => k.val ≤ x.val) ∧
      t.I.toNat = (if Config.qMemIncI then (s.I.toNat + x.val + 1) % 65536 else s.I.toNat) ∧
      t = { s with V := t.V, I := t.I, pc := t.pc, result := t.result }

/-- A dump of V0..VX and then a load of the same range from the same `I`, whatever happened to the registers between,
restores them, if no address lies in the font ROM; under either setting of `Q_MEM_INC_I` (R155's round trip). -/
def Obligations.DumpThenLoadRestoresTheRegisters : Prop :=
  ∀ (s : State) (x : RegIx), s.mem.wf = true →
    (∀ k, k ≤ x.val → isFont ((s.I.toNat + k) % 4096) = false) →
    ∃ t, exec (.ldMemVx x) s = .next t ∧
      ∀ u : State, u.mem = t.mem → u.I = s.I →
        ∃ v, exec (.ldVxMem x) u = .next v ∧ ∀ k : RegIx, k.val ≤ x.val → v.getV k = s.getV k

/-- A store is seen by the very next fetch (R60, R244): a `LD [I],Vx` that writes the two bytes after itself makes V0,
V1 the next instruction's word, high byte first (R55). -/
def Obligations.StoredBytesAreTheNextInstruction : Prop :=
  ∀ (s : State) (x : RegIx), s.mem.wf = true → (∀ r, s.run ≠ .halted r) → s.pc.toNat ≤ 4092 →
    decode s.fetchWord = .known (.ldMemVx x) → 1 ≤ x.val → s.I.toNat % 4096 = s.pc.toNat + 2 →
    isFont (s.pc.toNat + 2) = false → isFont (s.pc.toNat + 3) = false →
    ∃ t, step s = .next t ∧ t.pc = s.pc + 2 ∧ t.fetchWord = wordOfBytes (s.getV 0) (s.getV 1)

/-! ### Display -/

/-- `CLS` turns every pixel off and changes nothing else (R170). -/
def Obligations.ClearScreenTurnsEveryPixelOff : Prop :=
  ∀ s : State, ∃ t, exec .cls s = .next t ∧ EndsNormally s t ∧
    (∀ (px : Fin 64) (py : Fin 32), t.fb.pixel px py = false) ∧
    t = { s with fb := t.fb, pc := t.pc, result := t.result }

/-- `DRW` flips exactly the pixels the sprite covers, and VF is 1 exactly when a covered pixel was lit; every other
register, memory and `I` are unchanged (R171; general knowledge G17, G21, decisions D23, D24). Holds for either setting
of `Q_CLIP`. -/
def Obligations.DrawFlipsExactlyTheCoveredPixels : Prop :=
  ∀ (s : State) (x y : RegIx) (n : Nat), n ≤ 15 →
    ∃ t, exec (.drw x y n) s = .next t ∧ EndsNormally s t ∧
      (∀ px py, SpriteCovers Config.qClip s x y n px py → t.fb.pixel px py = !s.fb.pixel px py) ∧
      (∀ px py, ¬ SpriteCovers Config.qClip s x y n px py → t.fb.pixel px py = s.fb.pixel px py) ∧
      ((∃ px py, SpriteCovers Config.qClip s x y n px py ∧ s.fb.pixel px py = true) → t.getV 15 = 1) ∧
      ((¬ ∃ px py, SpriteCovers Config.qClip s x y n px py ∧ s.fb.pixel px py = true) → t.getV 15 = 0) ∧
      RegsKept s t (· = 15) ∧ t = { s with V := t.V, fb := t.fb, pc := t.pc, result := t.result }

/-- Drawing the same sprite again at the same place restores the framebuffer, and the second draw gives VF = 1 iff the
first turned a pixel on; on a screen that is clear where the sprite falls that is R171's "iff the sprite has a visible
lit pixel" (the model's reading of that sentence, notes/assumptions/18.md). -/
def Obligations.DrawingTwiceRestoresTheScreen : Prop :=
  ∀ (s : State) (x y : RegIx) (n : Nat), n ≤ 15 →
    ∃ t, exec (.drw x y n) s = .next t ∧
      ∀ u : State, u.fb = t.fb → u.mem = s.mem → u.I = s.I → u.getV x = s.getV x → u.getV y = s.getV y →
        ∃ v, exec (.drw x y n) u = .next v ∧ v.fb = s.fb ∧
          (v.getV 15 = 1 ↔ ∃ px py, SpriteCovers Config.qClip s x y n px py ∧ s.fb.pixel px py = false) ∧
          ((∀ px py, SpriteCovers Config.qClip s x y n px py → s.fb.pixel px py = false) →
            (v.getV 15 = 1 ↔ ∃ px py, SpriteCovers Config.qClip s x y n px py))

/-- The properties of `DRW` the source states as tests (R172): overlapping a lit pixel gives VF = 1; drawing on a clear
screen gives VF = 0; a sprite at column 63 draws its second column at column 0 when `Q_CLIP` is false and does not draw
it when true; only `CLS` and `DRW` change the framebuffer. -/
def Obligations.DrawPropertiesTheSourceTests : Prop :=
  (∀ (s t : State) (x y : RegIx) (n : Nat), n ≤ 15 → exec (.drw x y n) s = .next t →
    ((∃ px py, SpriteCovers Config.qClip s x y n px py ∧ s.fb.pixel px py = true) → t.getV 15 = 1) ∧
    ((∀ px py, SpriteCovers Config.qClip s x y n px py → s.fb.pixel px py = false) → t.getV 15 = 0) ∧
    ((s.getV x).toNat % 64 = 63 → ∀ r, r < n → (s.memRead (s.I.toNat + r)).getLsbD 6 = true →
      ∀ py : Fin 32, py.val = (s.getV y).toNat % 32 + r →
        t.fb.pixel 0 py = if Config.qClip then s.fb.pixel 0 py else !s.fb.pixel 0 py)) ∧
  (∀ (i : Instr) (s t : State), exec i s = .next t → t.fb ≠ s.fb → i = .cls ∨ ∃ x y n, i = .drw x y n)

/-! ### Keypad and timers -/

/-- `SKP` and `SKNP` skip by the level of the key that the low nibble of V[X] selects, and change nothing but `pc`
(R180, R181, R109; decision D16). -/
def Obligations.KeySkipsReadTheLevel : Prop :=
  ∀ (s : State) (x : RegIx) (k : KeyIx), k.val = (s.getV x).toNat % 16 →
    (∃ t, exec (.skp x) s = .next t ∧ t.result = some .continued ∧
      t.pc = s.pc + (if s.key[k] = true then 4 else 2) ∧ OnlyPc s t) ∧
    (∃ t, exec (.sknp x) s = .next t ∧ t.result = some .continued ∧
      t.pc = s.pc + (if s.key[k] = true then 2 else 4) ∧ OnlyPc s t)

/-- `LD Vx,K` (R182; general knowledge G18, decisions D17, D30): the first execution and a waiting one without a fresh
key sample the keypad and block; a waiting one with a fresh key completes with the lowest in V[X]. On a halted machine,
where no step executes it, it changes nothing (notes/assumptions/13.md, the model's choice). -/
def Obligations.WaitForKeyBlocksUntilAFreshPress : Prop :=
  ∀ (s : State) (x : RegIx),
    (s.run = .running → exec (.ldVxK x) s =
      .next { s with run := .waiting, keyPrev := s.key, result := some .blocked }) ∧
    (s.run = .waiting → (∀ k, ¬ FreshKey s k) → exec (.ldVxK x) s =
      .next { s with keyPrev := s.key, result := some .blocked }) ∧
    (s.run = .waiting → ∀ k, FreshKey s k → (∀ j, j < k → ¬ FreshKey s j) →
      ∃ t, exec (.ldVxK x) s = .next t ∧ EndsNormally s t ∧ t.run = .running ∧ (t.getV x).toNat = k.val ∧
        RegsKept s t (· = x) ∧
        t = { s with V := t.V, run := t.run, pc := t.pc, result := t.result }) ∧
    (∀ r, s.run = .halted r → exec (.ldVxK x) s = .next { s with result := some (.fatal r) })

/-- A press and a release of a key that both fall between two steps of a wait are not seen: the step blocks as if the
key had never been touched (R182; decision D17). -/
def Obligations.PressBetweenTwoStepsIsNotSeen : Prop :=
  ∀ (s : State) (k : KeyIx), s.Inv → s.run = .waiting → s.key[k] = false → (∀ j, ¬ FreshKey s j) →
    ∃ t, runOps [.setKey k true, .setKey k false, .step] s = .next t ∧ t.result = some .blocked ∧
      t.run = .waiting ∧ t.pc = s.pc ∧ t.V = s.V

/-- `LD DT,Vx` and `LD ST,Vx` copy the register to the timer as it is and change nothing else; the host sees the sound
timer at its next read, and the tone is on iff it is nonzero (R184, R185, R212). That these instructions exist is the
spec's general knowledge G11 (notes/assumptions/17.md, PRESUMED). -/
def Obligations.TimerLoadsCopyTheRegister : Prop :=
  ∀ (s : State) (x : RegIx),
    (∃ t, exec (.ldDTVx x) s = .next t ∧ EndsNormally s t ∧ t.DT = s.getV x ∧
      t = { s with DT := t.DT, pc := t.pc, result := t.result }) ∧
    (∃ t, exec (.ldSTVx x) s = .next t ∧ EndsNormally s t ∧ t.ST = s.getV x ∧ t.soundTimer = s.getV x ∧
      (t.soundActive = true ↔ (s.getV x).toNat ≠ 0) ∧
      t = { s with ST := t.ST, pc := t.pc, result := t.result })

/-- `n` ticks, in any run state, lower both timers by `n`, floored at zero, and change nothing else (R211; decision
D28). -/
def Obligations.TicksCountDownToZeroAndStay : Prop :=
  ∀ (n : Nat) (s : State), ∃ t, runOps (List.replicate n HostOp.tickTimers) s = .next t ∧
    t.DT.toNat = s.DT.toNat - n ∧ t.ST.toNat = s.ST.toNat - n ∧ t = { s with DT := t.DT, ST := t.ST }

/-- A step changes a timer only by the load instruction of that timer, and a step never changes the keypad; only
`set_key` and `reset` do (R26, R28). -/
def Obligations.TimersAndKeysBelongToTheHost : Prop :=
  (∀ s t : State, step s = .next t →
    (t.DT ≠ s.DT → ∃ x, decode s.fetchWord = .known (.ldDTVx x) ∧ t.DT = s.getV x) ∧
    (t.ST ≠ s.ST → ∃ x, decode s.fetchWord = .known (.ldSTVx x) ∧ t.ST = s.getV x)) ∧
  (∀ (o : HostOp) (s t : State), transition o s = .next t → t.key ≠ s.key →
    (∃ k p, o = .setKey k p) ∨ ∃ image, o = .reset image) ∧
  (∀ (s : State) (k : KeyIx) (p : Bool), ∃ t, transition (.setKey k p) s = .next t ∧ t.key[k] = p ∧
    (∀ j : KeyIx, j ≠ k → t.key[j] = s.key[j]) ∧ t = { s with key := t.key } ∧ (s.key[k] = p → t = s))

/-! ### Reset -/

/-- The state after reset with the empty image (R32): memory, `pc`, stack and timers as the source states them. V, I,
the framebuffer and the keys are the spec's decision D9, `run` its decision D19 (notes/assumptions/6.md). -/
def Obligations.ResetStateIsTheTable : Prop :=
  (∀ a, a < 4096 → State.reset.memRead a =
    if 0x050 ≤ a ∧ a ≤ 0x09F then fontBytes.getD (a - 0x050) 0 else 0) ∧
  State.reset.pc = 0x0200 ∧ State.reset.sp = 0 ∧ State.reset.DT = 0 ∧ State.reset.ST = 0 ∧
  (∀ k, State.reset.getV k = 0) ∧ State.reset.I = 0 ∧
  (∀ (px : Fin 64) (py : Fin 32), State.reset.fb.pixel px py = false) ∧
  (∀ k : KeyIx, State.reset.key[k] = false) ∧ State.reset.run = .running

/-- Reset with an image, from any state, a halted one among them (R62, R240, R32, R203): an image of at most 3584 bytes
is read back from 0x200 on, the font ROM holds the font, the rest of RAM is zero, and every other piece of state takes
its reset value, `pc` 0x200 and `run` Running among them; a longer image is refused and leaves the machine untouched.
V, I, the framebuffer and the keys are the spec's decision D9 and `run` its D19 (notes/assumptions/6.md); that loading
is part of reset alone is its D26 (notes/assumptions/17.md, PRESUMED); the values of `stack` and `keyPrev`
(notes/assumptions/7.md), the cleared record of the last answer (notes/assumptions/1.md) and the counter of draws that
goes on (notes/assumptions/16.md) are the model's choices. -/
def Obligations.ResetLoadsTheImage : Prop :=
  ∀ (s : State) (image : List Byte),
    (image.length ≤ 3584 → ∃ t, s.hostReset image = (.ok, t) ∧
      (∀ (k : Nat) (h : k < image.length), t.memRead (0x200 + k) = image[k]) ∧
      (∀ a, 0x050 ≤ a → a ≤ 0x09F → t.memRead a = fontBytes.getD (a - 0x050) 0) ∧
      (∀ a, a < 4096 → isFont a = false → a < 0x200 ∨ 0x200 + image.length ≤ a → t.memRead a = 0) ∧
      t.pc = 0x0200 ∧ t.run = .running ∧ t = { State.reset with mem := t.mem, draws := s.draws }) ∧
    (3584 < image.length → s.hostReset image = (.tooLarge, s))

/-! ### Invariants and whole-machine rules -/

/-- The invariant holds after reset, with or without an image. -/
def Obligations.InvariantHoldsAtReset : Prop :=
  State.reset.Inv ∧ ∀ (image : List Byte) (s : State), imageFits image = true → (s.hostReset image).2.Inv

/-- Every step keeps the invariant: canonical memory, `pc` at most 0x10FE (R25), return addresses at most 0x1000 (R103),
and a wait that stands at its `LD Vx,K` (R29). -/
def Obligations.InvariantKeptByEveryStep : Prop :=
  ∀ s t : State, s.Inv → step s = .next t → t.Inv

/-- Whatever operations the host takes, in whatever order (R214), the machine answers a next state and keeps the
invariant. -/
def Obligations.InvariantKeptOverEveryInterleaving : Prop :=
  ∀ (ops : List HostOp) (s : State), s.Inv → ∃ t, runOps ops s = .next t ∧ t.Inv

/-- No instruction writes a register but its named destinations, and VF where it is a flag writer, which leaves 0 or 1
there (R21, R22). -/
def Obligations.RegistersChangeOnlyByName : Prop :=
  ∀ (i : Instr) (s t : State), exec i s = .next t →
    (∀ k, ¬ MayWriteReg i k → t.getV k = s.getV k) ∧ (WritesFlag i → t.getV 15 = 0 ∨ t.getV 15 = 1)

/-- Which instructions can change each piece of state other than V and `pc` (R23, R24, R26, R27, R28, R29, R57); the
moves of `I` by a transfer need `Q_MEM_INC_I`. -/
def Obligations.EachPieceOfStateHasItsWriters : Prop :=
  ∀ (i : Instr) (s t : State), exec i s = .next t →
    (t.mem ≠ s.mem → ∃ x, i = .ldB x ∨ i = .ldMemVx x) ∧
    (t.I ≠ s.I → (∃ nnn, i = .ldI nnn) ∨ (∃ x, i = .addI x ∨ i = .ldF x) ∨
      (Config.qMemIncI = true ∧ ∃ x, i = .ldMemVx x ∨ i = .ldVxMem x)) ∧
    (t.stack ≠ s.stack → ∃ nnn, i = .call nnn) ∧ (t.sp ≠ s.sp → i = .ret ∨ ∃ nnn, i = .call nnn) ∧
    (t.DT ≠ s.DT → ∃ x, i = .ldDTVx x) ∧ (t.ST ≠ s.ST → ∃ x, i = .ldSTVx x) ∧
    (t.fb ≠ s.fb → i = .cls ∨ ∃ x y n, i = .drw x y n) ∧ t.key = s.key ∧
    (t.run ≠ s.run → i = .ret ∨ (∃ nnn, i = .call nnn) ∨ ∃ x, i = .ldVxK x) ∧
    (t.keyPrev ≠ s.keyPrev → ∃ x, i = .ldVxK x) ∧ (t.draws ≠ s.draws → ∃ x nn, i = .rnd x nn)

/-- How an instruction that completes moves `pc` (R25, R100): a jump or call to its target, a return to the popped
address, a skip by 2 or 4, every other by 2; one that does not complete leaves it. -/
def Obligations.PcMovesByTheKindOfInstruction : Prop :=
  ∀ (i : Instr) (s t : State), exec i s = .next t →
    (t.result ≠ some .continued → t.pc = s.pc) ∧
    (t.result = some .continued →
      (t.pc = s.pc + 2 ∧ i ≠ .ret ∧ ∀ nnn, i ≠ .jp nnn ∧ i ≠ .call nnn ∧ i ≠ .jpV0 nnn) ∨
      (t.pc = s.pc + 4 ∧ ((∃ x nn, i = .seImm x nn ∨ i = .sneImm x nn) ∨ (∃ x y, i = .seReg x y ∨ i = .sneReg x y) ∨
        ∃ x, i = .skp x ∨ i = .sknp x)) ∨
      (∃ nnn, (i = .jp nnn ∨ i = .call nnn) ∧ t.pc.toNat = nnn.toNat) ∨
      (∃ nnn, i = .jpV0 nnn ∧ t.pc.toNat = nnn.toNat + (s.getV 0).toNat) ∨
      (i = .ret ∧ ∃ k : Fin 16, k.val + 1 = s.sp.val ∧ t.pc = s.stack[k]))

/-- The final state the spec suggests, running at a jump to itself, is final: a step answers `Continue` and changes
nothing else, and the ticks and key changes the host makes keep it such a state (R247, the spec's suggestion and general
knowledge G20; R101, R211, R213). -/
def Obligations.ASpinningProgramStays : Prop :=
  ∀ s : State, s.Spinning → step s = .next { s with result := some .continued } ∧
    ∀ ops : List HostOp, (∀ image, HostOp.reset image ∉ ops) →
      ∃ t, runOps ops s = .next t ∧ t.Spinning ∧ t = { s with DT := t.DT, ST := t.ST, key := t.key, result := t.result }

/-- What the spec says nothing reads can never matter: states that differ only in stack entries at or above `sp` and,
outside a wait, in `key_prev` (R24, R29) answer the same result and stay so related. The values the model gives these at
reset (notes/assumptions/7.md) and the model's own record of the last answer are therefore not observable. The two
states hold equal counters of draws, so that a `RND` in both draws the same byte: that is the model's choice of the free
value (notes/assumptions/5.md, DESIGN CHOICE, unsafe for a claim that compares two runs), so the statement speaks of two
machines with the same stream of draws. -/
def Obligations.UnreadStateNeverMatters : Prop :=
  ∀ s u : State, SameButUnread s u → ∀ a, ∃ t v, step s = .next t ∧ step { u with result := a } = .next v ∧
    SameButUnread t v ∧ t.result = v.result
end

