-- ==== Sys2Proof/Laws/State.lean ====
section
/-! SUPPORT. One lemma per field for each named update of the state, true by rfl: what the update sets, and what it
leaves. Later proofs never unfold an update to read a field. -/

namespace Sys2Proof.Machine

variable (s : State)

/-! ### `setV` -/

@[simp] theorem State.setV_mem (x : RegIx) (b : Byte) : (s.setV x b).mem = s.mem := rfl
@[simp] theorem State.setV_V (x : RegIx) (b : Byte) : (s.setV x b).V = s.V.set x.val b x.isLt := rfl
@[simp] theorem State.setV_I (x : RegIx) (b : Byte) : (s.setV x b).I = s.I := rfl
@[simp] theorem State.setV_pc (x : RegIx) (b : Byte) : (s.setV x b).pc = s.pc := rfl
@[simp] theorem State.setV_stack (x : RegIx) (b : Byte) : (s.setV x b).stack = s.stack := rfl
@[simp] theorem State.setV_sp (x : RegIx) (b : Byte) : (s.setV x b).sp = s.sp := rfl
@[simp] theorem State.setV_DT (x : RegIx) (b : Byte) : (s.setV x b).DT = s.DT := rfl
@[simp] theorem State.setV_ST (x : RegIx) (b : Byte) : (s.setV x b).ST = s.ST := rfl
@[simp] theorem State.setV_fb (x : RegIx) (b : Byte) : (s.setV x b).fb = s.fb := rfl
@[simp] theorem State.setV_key (x : RegIx) (b : Byte) : (s.setV x b).key = s.key := rfl
@[simp] theorem State.setV_run (x : RegIx) (b : Byte) : (s.setV x b).run = s.run := rfl
@[simp] theorem State.setV_keyPrev (x : RegIx) (b : Byte) : (s.setV x b).keyPrev = s.keyPrev := rfl
@[simp] theorem State.setV_result (x : RegIx) (b : Byte) : (s.setV x b).result = s.result := rfl
@[simp] theorem State.setV_draws (x : RegIx) (b : Byte) : (s.setV x b).draws = s.draws := rfl

/-! ### `memWrite` -/

@[simp] theorem State.memWrite_mem (a : Nat) (b : Byte) : (s.memWrite a b).mem = s.mem.write (a % Config.memSize) b := rfl
@[simp] theorem State.memWrite_V (a : Nat) (b : Byte) : (s.memWrite a b).V = s.V := rfl
@[simp] theorem State.memWrite_I (a : Nat) (b : Byte) : (s.memWrite a b).I = s.I := rfl
@[simp] theorem State.memWrite_pc (a : Nat) (b : Byte) : (s.memWrite a b).pc = s.pc := rfl
@[simp] theorem State.memWrite_stack (a : Nat) (b : Byte) : (s.memWrite a b).stack = s.stack := rfl
@[simp] theorem State.memWrite_sp (a : Nat) (b : Byte) : (s.memWrite a b).sp = s.sp := rfl
@[simp] theorem State.memWrite_DT (a : Nat) (b : Byte) : (s.memWrite a b).DT = s.DT := rfl
@[simp] theorem State.memWrite_ST (a : Nat) (b : Byte) : (s.memWrite a b).ST = s.ST := rfl
@[simp] theorem State.memWrite_fb (a : Nat) (b : Byte) : (s.memWrite a b).fb = s.fb := rfl
@[simp] theorem State.memWrite_key (a : Nat) (b : Byte) : (s.memWrite a b).key = s.key := rfl
@[simp] theorem State.memWrite_run (a : Nat) (b : Byte) : (s.memWrite a b).run = s.run := rfl
@[simp] theorem State.memWrite_keyPrev (a : Nat) (b : Byte) : (s.memWrite a b).keyPrev = s.keyPrev := rfl
@[simp] theorem State.memWrite_result (a : Nat) (b : Byte) : (s.memWrite a b).result = s.result := rfl
@[simp] theorem State.memWrite_draws (a : Nat) (b : Byte) : (s.memWrite a b).draws = s.draws := rfl

/-! ### `tickTimers` -/

@[simp] theorem State.tickTimers_mem  : (s.tickTimers).mem = s.mem := rfl
@[simp] theorem State.tickTimers_V  : (s.tickTimers).V = s.V := rfl
@[simp] theorem State.tickTimers_I  : (s.tickTimers).I = s.I := rfl
@[simp] theorem State.tickTimers_pc  : (s.tickTimers).pc = s.pc := rfl
@[simp] theorem State.tickTimers_stack  : (s.tickTimers).stack = s.stack := rfl
@[simp] theorem State.tickTimers_sp  : (s.tickTimers).sp = s.sp := rfl
@[simp] theorem State.tickTimers_DT  : (s.tickTimers).DT = countDown s.DT := rfl
@[simp] theorem State.tickTimers_ST  : (s.tickTimers).ST = countDown s.ST := rfl
@[simp] theorem State.tickTimers_fb  : (s.tickTimers).fb = s.fb := rfl
@[simp] theorem State.tickTimers_key  : (s.tickTimers).key = s.key := rfl
@[simp] theorem State.tickTimers_run  : (s.tickTimers).run = s.run := rfl
@[simp] theorem State.tickTimers_keyPrev  : (s.tickTimers).keyPrev = s.keyPrev := rfl
@[simp] theorem State.tickTimers_result  : (s.tickTimers).result = s.result := rfl
@[simp] theorem State.tickTimers_draws  : (s.tickTimers).draws = s.draws := rfl

/-! ### `setKey` -/

@[simp] theorem State.setKey_mem (k : KeyIx) (p : Bool) : (s.setKey k p).mem = s.mem := rfl
@[simp] theorem State.setKey_V (k : KeyIx) (p : Bool) : (s.setKey k p).V = s.V := rfl
@[simp] theorem State.setKey_I (k : KeyIx) (p : Bool) : (s.setKey k p).I = s.I := rfl
@[simp] theorem State.setKey_pc (k : KeyIx) (p : Bool) : (s.setKey k p).pc = s.pc := rfl
@[simp] theorem State.setKey_stack (k : KeyIx) (p : Bool) : (s.setKey k p).stack = s.stack := rfl
@[simp] theorem State.setKey_sp (k : KeyIx) (p : Bool) : (s.setKey k p).sp = s.sp := rfl
@[simp] theorem State.setKey_DT (k : KeyIx) (p : Bool) : (s.setKey k p).DT = s.DT := rfl
@[simp] theorem State.setKey_ST (k : KeyIx) (p : Bool) : (s.setKey k p).ST = s.ST := rfl
@[simp] theorem State.setKey_fb (k : KeyIx) (p : Bool) : (s.setKey k p).fb = s.fb := rfl
@[simp] theorem State.setKey_key (k : KeyIx) (p : Bool) : (s.setKey k p).key = s.key.set k.val p k.isLt := rfl
@[simp] theorem State.setKey_run (k : KeyIx) (p : Bool) : (s.setKey k p).run = s.run := rfl
@[simp] theorem State.setKey_keyPrev (k : KeyIx) (p : Bool) : (s.setKey k p).keyPrev = s.keyPrev := rfl
@[simp] theorem State.setKey_result (k : KeyIx) (p : Bool) : (s.setKey k p).result = s.result := rfl
@[simp] theorem State.setKey_draws (k : KeyIx) (p : Bool) : (s.setKey k p).draws = s.draws := rfl

/-! ### The result and then the flag -/

@[simp] theorem writeWithFlag_mem (x : RegIx) (b : Byte) (c : Bool) : (writeWithFlag x b c s).mem = s.mem := rfl
@[simp] theorem writeWithFlag_I (x : RegIx) (b : Byte) (c : Bool) : (writeWithFlag x b c s).I = s.I := rfl
@[simp] theorem writeWithFlag_pc (x : RegIx) (b : Byte) (c : Bool) : (writeWithFlag x b c s).pc = s.pc := rfl
@[simp] theorem writeWithFlag_stack (x : RegIx) (b : Byte) (c : Bool) : (writeWithFlag x b c s).stack = s.stack := rfl
@[simp] theorem writeWithFlag_sp (x : RegIx) (b : Byte) (c : Bool) : (writeWithFlag x b c s).sp = s.sp := rfl
@[simp] theorem writeWithFlag_DT (x : RegIx) (b : Byte) (c : Bool) : (writeWithFlag x b c s).DT = s.DT := rfl
@[simp] theorem writeWithFlag_ST (x : RegIx) (b : Byte) (c : Bool) : (writeWithFlag x b c s).ST = s.ST := rfl
@[simp] theorem writeWithFlag_fb (x : RegIx) (b : Byte) (c : Bool) : (writeWithFlag x b c s).fb = s.fb := rfl
@[simp] theorem writeWithFlag_key (x : RegIx) (b : Byte) (c : Bool) : (writeWithFlag x b c s).key = s.key := rfl
@[simp] theorem writeWithFlag_run (x : RegIx) (b : Byte) (c : Bool) : (writeWithFlag x b c s).run = s.run := rfl
@[simp] theorem writeWithFlag_keyPrev (x : RegIx) (b : Byte) (c : Bool) : (writeWithFlag x b c s).keyPrev = s.keyPrev := rfl
@[simp] theorem writeWithFlag_result (x : RegIx) (b : Byte) (c : Bool) : (writeWithFlag x b c s).result = s.result := rfl
@[simp] theorem writeWithFlag_draws (x : RegIx) (b : Byte) (c : Bool) : (writeWithFlag x b c s).draws = s.draws := rfl

/-! ### Reads look at one field only -/

@[simp] theorem State.memRead_setV (x : RegIx) (b : Byte) (a : Nat) : (s.setV x b).memRead a = s.memRead a := rfl
@[simp] theorem State.getV_memWrite (a : Nat) (b : Byte) (k : RegIx) : (s.memWrite a b).getV k = s.getV k := rfl

/-- A register read depends on `V` alone. -/
theorem State.getV_congr {s t : State} (h : t.V = s.V) (k : RegIx) : t.getV k = s.getV k := by
  unfold State.getV
  rw [h]

/-- A memory read depends on `mem` alone. -/
theorem State.memRead_congr {s t : State} (h : t.mem = s.mem) (a : Nat) : t.memRead a = s.memRead a := by
  unfold State.memRead
  rw [h]

/-- The fetched word depends on `mem` and `pc` alone. -/
theorem State.fetchWord_congr {s t : State} (hm : t.mem = s.mem) (hp : t.pc = s.pc) : t.fetchWord = s.fetchWord := by
  unfold State.fetchWord State.memRead
  rw [hm, hp]

end Sys2Proof.Machine
end

