-- ==== Sys2Proof/Laws/Memory.lean ====
section
/-! SUPPORT. The laws of memory: a read after a write, and that every memory operation keeps the canonical form, in
which equal reads are equal data. -/

namespace Sys2Proof.Machine

/-- The font ROM is 0x050..0x09F (R51). -/
theorem isFont_iff {a : Nat} : isFont a = true ↔ 0x050 ≤ a ∧ a ≤ 0x09F := by
  unfold isFont
  rw [Bool.and_eq_true, decide_eq_true_iff, decide_eq_true_iff]
  exact Iff.rfl

/-! ### The list -/

theorem Memory.listed_put_ne (m : Memory) {a a' : Nat} (b : Byte) (h : a' ≠ a) :
    ((m.put a b).listed a').getD (background a') = (m.listed a').getD (background a') := by
  induction m with
  | nil =>
    unfold Memory.put
    split <;> simp [Memory.listed, Ne.symm h]
  | cons kc m ih =>
    obtain ⟨k, c⟩ := kc
    unfold Memory.put
    split
    · split <;> simp [Memory.listed, Ne.symm h]
    · split
      · next h1 h2 =>
        subst h2
        split <;> simp [Memory.listed, Ne.symm h]
      · simp only [Memory.listed]
        split
        · rfl
        · exact ih

/-- Where no listed address is below `lo`, an address below `lo` is not listed. -/
theorem Memory.listed_below {m : Memory} {lo a : Nat} (hw : m.wfFrom lo = true) (h : a < lo) : m.listed a = none := by
  induction m generalizing lo with
  | nil => rfl
  | cons kc m ih =>
    obtain ⟨k, c⟩ := kc
    simp only [Memory.wfFrom, Bool.and_eq_true, decide_eq_true_eq] at hw
    have hk : k ≠ a := by omega
    simp only [Memory.listed, hk, if_false]
    exact ih hw.2 (by omega)

theorem Memory.listed_put_same (m : Memory) (a lo : Nat) (b : Byte) (hw : m.wfFrom lo = true) :
    ((m.put a b).listed a).getD (background a) = b := by
  induction m generalizing lo with
  | nil =>
    unfold Memory.put
    split
    · next h => simp [Memory.listed, h]
    · simp [Memory.listed]
  | cons kc m ih =>
    obtain ⟨k, c⟩ := kc
    have hm := hw
    simp only [Memory.wfFrom, Bool.and_eq_true, decide_eq_true_eq] at hm
    unfold Memory.put
    split
    · next h =>
      split
      · next hb =>
        have : k ≠ a := by omega
        simp only [Memory.listed, this, if_false]
        rw [Memory.listed_below hm.2 (by omega), hb]
        rfl
      · simp [Memory.listed]
    · split
      · next h1 h2 =>
        subst h2
        split
        · next hb =>
          rw [Memory.listed_below hm.2 (by omega), hb]
          rfl
        · simp [Memory.listed]
      · next h1 h2 =>
        have : k ≠ a := Ne.symm h2
        simp only [Memory.listed, this, if_false]
        exact ih (k + 1) hm.2

/-- The canonical form from an address on is that from any address before it. -/
theorem Memory.wfFrom_mono {m : Memory} {lo lo' : Nat} (hw : m.wfFrom lo = true) (h : lo' ≤ lo) :
    m.wfFrom lo' = true := by
  cases m with
  | nil => rfl
  | cons kc m =>
    obtain ⟨k, c⟩ := kc
    simp only [Memory.wfFrom, Bool.and_eq_true, decide_eq_true_eq] at hw ⊢
    obtain ⟨⟨⟨⟨h1, h2⟩, h3⟩, h4⟩, h5⟩ := hw
    exact ⟨⟨⟨⟨by omega, h2⟩, h3⟩, h4⟩, h5⟩

/-- Putting a byte at an address of RAM keeps the canonical form. -/
theorem Memory.wfFrom_put {m : Memory} {lo a : Nat} {b : Byte} (hw : m.wfFrom lo = true) (hlo : lo ≤ a)
    (ha : a < Config.memSize) (hf : isFont a = false) : (m.put a b).wfFrom lo = true := by
  induction m generalizing lo with
  | nil =>
    unfold Memory.put
    split
    · rfl
    · next h => simp [Memory.wfFrom, hlo, ha, hf, h]
  | cons kc m ih =>
    obtain ⟨k, c⟩ := kc
    have hm := hw
    simp only [Memory.wfFrom, Bool.and_eq_true, decide_eq_true_eq] at hm
    obtain ⟨⟨⟨⟨h1, h2⟩, h3⟩, h4⟩, h5⟩ := hm
    unfold Memory.put
    split
    · next h =>
      split
      · exact hw
      · next hb =>
        have hk : a + 1 ≤ k := h
        simp [Memory.wfFrom, hlo, ha, hf, hb, hk, h2, h4, h5]
        simpa using h3
    · next h =>
      split
      · next hk =>
        subst hk
        split
        · exact Memory.wfFrom_mono h5 (by omega)
        · next hb => simp [Memory.wfFrom, hlo, ha, hf, hb, h5]
      · next hk =>
        have := ih h5 (by omega)
        simp [Memory.wfFrom, h1, h2, h4, this]
        simpa using h3

/-! ### Reads and writes below 4096 -/

/-- A font address always returns the font byte (R57). -/
theorem Memory.read_font (m : Memory) {a : Nat} (h : isFont a = true) : m.read a = background a := by
  simp [Memory.read, h]

theorem Memory.read_write_ne (m : Memory) {a a' : Nat} (b : Byte) (h : a' ≠ a) :
    (m.write a b).read a' = m.read a' := by
  unfold Memory.write
  split
  · rfl
  · simp only [Memory.read]
    split
    · rfl
    · exact Memory.listed_put_ne m b h

/-- In canonical form a read after a write to RAM gives the byte written (R57). -/
theorem Memory.read_write_same {m : Memory} {a : Nat} (b : Byte) (hw : m.wf = true) (hf : isFont a = false) :
    (m.write a b).read a = b := by
  simp only [Memory.write, Memory.read, hf, Bool.false_eq_true, if_false]
  exact Memory.listed_put_same m a 0 b hw

/-- Every write keeps the canonical form. -/
theorem Memory.wf_write {m : Memory} {a : Nat} {b : Byte} (hw : m.wf = true) (ha : a < Config.memSize) :
    (m.write a b).wf = true := by
  unfold Memory.write
  split
  · exact hw
  · next hf => exact Memory.wfFrom_put hw (Nat.zero_le a) ha (by simpa using hf)

/-- Two memories in canonical form from the same address on that agree on every listing are the same list. -/
theorem Memory.ext_of_listed {m m' : Memory} {lo : Nat} (hw : m.wfFrom lo = true) (hw' : m'.wfFrom lo = true)
    (h : ∀ a, lo ≤ a → m.read a = m'.read a) : m = m' := by
  induction m generalizing m' lo with
  | nil =>
    cases m' with
    | nil => rfl
    | cons kc m' =>
      obtain ⟨k, c⟩ := kc
      simp only [Memory.wfFrom, Bool.and_eq_true, decide_eq_true_eq, Bool.not_eq_true'] at hw'
      obtain ⟨⟨⟨⟨h1, -⟩, h3⟩, h4⟩, -⟩ := hw'
      have := h k h1
      simp only [Memory.read, h3, Memory.listed, if_true, Bool.false_eq_true, if_false] at this
      exact absurd this.symm h4
  | cons kc m ih =>
    obtain ⟨k, c⟩ := kc
    simp only [Memory.wfFrom, Bool.and_eq_true, decide_eq_true_eq, Bool.not_eq_true'] at hw
    obtain ⟨⟨⟨⟨h1, -⟩, h3⟩, h4⟩, h5⟩ := hw
    cases m' with
    | nil =>
      have := h k h1
      simp only [Memory.read, h3, Memory.listed, if_true, Bool.false_eq_true, if_false] at this
      exact absurd this h4
    | cons kc' m' =>
      obtain ⟨k', c'⟩ := kc'
      simp only [Memory.wfFrom, Bool.and_eq_true, decide_eq_true_eq, Bool.not_eq_true'] at hw'
      obtain ⟨⟨⟨⟨h1', -⟩, h3'⟩, h4'⟩, h5'⟩ := hw'
      have hk : k = k' := by
        rcases Nat.lt_trichotomy k k' with hlt | heq | hlt
        · have := h k h1
          have hne : k' ≠ k := by omega
          simp only [Memory.read, h3, Memory.listed, if_true, Bool.false_eq_true, if_false, hne] at this
          rw [Memory.listed_below h5' (by omega)] at this
          exact absurd this h4
        · exact heq
        · have := h k' h1'
          have hne : k ≠ k' := by omega
          simp only [Memory.read, h3', Memory.listed, if_true, Bool.false_eq_true, if_false, hne] at this
          rw [Memory.listed_below h5 (by omega)] at this
          exact absurd this.symm h4'
      subst hk
      have hc : c = c' := by
        have := h k h1
        simpa [Memory.read, h3, Memory.listed] using this
      subst hc
      have hm : m = m' := by
        refine ih h5 h5' fun a ha => ?_
        have hne : k ≠ a := by omega
        have := h a (by omega)
        simpa [Memory.read, Memory.listed, hne] using this
      rw [hm]

/-- In canonical form equal reads are equal data. -/
theorem Memory.ext_of_read {m m' : Memory} (hw : m.wf = true) (hw' : m'.wf = true)
    (h : ∀ a, m.read a = m'.read a) : m = m' := Memory.ext_of_listed hw hw' fun a _ => h a

/-! ### The primitives of R53 -/

theorem State.memRead_font (s : State) {a : Nat} (h : isFont (a % Config.memSize) = true) :
    s.memRead a = background (a % Config.memSize) := Memory.read_font _ h

/-- A store into the font ROM is discarded (R53). -/
theorem State.memWrite_font (s : State) {a : Nat} (b : Byte) (h : isFont (a % Config.memSize) = true) :
    s.memWrite a b = s := by
  simp [State.memWrite, Memory.write, h]

theorem State.memRead_memWrite_ne (s : State) {a a' : Nat} (b : Byte)
    (h : a' % Config.memSize ≠ a % Config.memSize) : (s.memWrite a b).memRead a' = s.memRead a' :=
  Memory.read_write_ne _ b h

theorem State.memRead_memWrite_same {s : State} {a a' : Nat} (b : Byte) (hw : s.mem.wf = true)
    (hf : isFont (a % Config.memSize) = false) (h : a' % Config.memSize = a % Config.memSize) :
    (s.memWrite a b).memRead a' = b := by
  unfold State.memRead
  rw [h]
  exact Memory.read_write_same b hw hf

theorem State.memWrite_wf {s : State} (a : Nat) (b : Byte) (hw : s.mem.wf = true) :
    (s.memWrite a b).mem.wf = true :=
  Memory.wf_write hw (Nat.mod_lt _ (by decide))

end Sys2Proof.Machine
end

