-- ==== Sys2Proof/Laws/Ops.lean ====
section
/-! SUPPORT. One specification lemma per shared operation: registers, transfers of several bytes or registers, the
stack, and the ways a step ends. -/

namespace Sys2Proof.Machine

/-! ### Registers -/

/-- A register read after a register write (R21). -/
theorem State.getV_setV (s : State) (x k : RegIx) (b : Byte) :
    (s.setV x b).getV k = if k = x then b else s.getV k := by
  simp only [State.getV, State.setV, Fin.getElem_fin, Vector.getElem_set, Fin.ext_iff]
  split
  · next h => simp [h]
  · next h => simp [Ne.symm h]

@[simp] theorem State.getV_setV_same (s : State) (x : RegIx) (b : Byte) : (s.setV x b).getV x = b := by
  simp [State.getV_setV]

theorem State.getV_setV_ne (s : State) {x k : RegIx} (b : Byte) (h : k ≠ x) : (s.setV x b).getV k = s.getV k := by
  simp [State.getV_setV, h]

/-- The result and then the flag: VF holds the flag, the destination the result unless it is VF (R133). -/
theorem getV_writeWithFlag (s : State) (x k : RegIx) (b : Byte) (c : Bool) :
    (writeWithFlag x b c s).getV k = if k = vf then flagByte c else if k = x then b else s.getV k := by
  simp only [writeWithFlag, State.getV_setV]

/-! ### Several bytes -/

/-- Storing bytes changes memory only. -/
theorem State.storeBytes_frame (a : Nat) (bs : List Byte) (s : State) :
    s.storeBytes a bs = { s with mem := (s.storeBytes a bs).mem } := by
  induction bs generalizing a s with
  | nil => rfl
  | cons b bs ih =>
    unfold State.storeBytes
    rw [ih]
    rfl

theorem State.storeBytes_wf {s : State} (a : Nat) (bs : List Byte) (hw : s.mem.wf = true) :
    (s.storeBytes a bs).mem.wf = true := by
  induction bs generalizing a s with
  | nil => exact hw
  | cons b bs ih => exact ih (a + 1) (State.memWrite_wf a b hw)

/-- Storing bytes leaves every byte outside the stored ones. -/
theorem State.memRead_storeBytes_outside (s : State) (a a' : Nat) (bs : List Byte)
    (h : ∀ k, k < bs.length → a' % Config.memSize ≠ (a + k) % Config.memSize) :
    (s.storeBytes a bs).memRead a' = s.memRead a' := by
  induction bs generalizing a s with
  | nil => rfl
  | cons b bs ih =>
    unfold State.storeBytes
    have h0 : a' % Config.memSize ≠ a % Config.memSize := h 0 (by simp)
    rw [ih, State.memRead_memWrite_ne s b h0]
    intro k hk
    have := h (k + 1) (by simpa using hk)
    rwa [show a + 1 + k = a + (k + 1) by omega]

/-- Storing bytes never changes a font byte (R53). -/
theorem State.memRead_storeBytes_font (s : State) (a a' : Nat) (bs : List Byte)
    (h : isFont (a' % Config.memSize) = true) : (s.storeBytes a bs).memRead a' = s.memRead a' := by
  rw [State.memRead_font _ h, State.memRead_font _ h]

/-- Each stored byte is read back, outside the font ROM. -/
theorem State.memRead_storeBytes_inside {s : State} (a k : Nat) (bs : List Byte) (hw : s.mem.wf = true)
    (hlen : bs.length ≤ Config.memSize) (hk : k < bs.length) (hf : isFont ((a + k) % Config.memSize) = false) :
    (s.storeBytes a bs).memRead (a + k) = bs[k] := by
  induction bs generalizing a s k with
  | nil => simp at hk
  | cons b bs ih =>
    simp only [List.length_cons] at hlen hk
    unfold State.storeBytes
    cases k with
    | zero =>
      rw [State.memRead_storeBytes_outside]
      · exact State.memRead_memWrite_same b hw (by simpa using hf) rfl
      · intro k hk'
        simp only [Config.memSize] at *
        omega
    | succ k =>
      have h := ih (s := s.memWrite a b) (a + 1) k (State.memWrite_wf a b hw) (by omega) (by omega)
        (by rwa [show a + 1 + k = a + (k + 1) by omega])
      rw [show a + (k + 1) = a + 1 + k by omega]
      simpa using h

/-- What is stored depends on the memory alone. -/
theorem State.storeBytes_mem_congr {s u : State} (a : Nat) (bs : List Byte) (h : s.mem = u.mem) :
    (s.storeBytes a bs).mem = (u.storeBytes a bs).mem := by
  induction bs generalizing a s u with
  | nil => exact h
  | cons b bs ih => exact ih (a + 1) (by simp [h])

/-! ### Several registers -/

/-- The registers of a transfer of V0..VX are those up to X (R154, R155). -/
theorem mem_regsUpTo (x k : RegIx) : k ∈ regsUpTo x ↔ k.val ≤ x.val := by
  revert x k
  decide

/-- A dump of V0..VX stores the registers' values at ascending addresses. -/
theorem State.dumpRegs_eq_storeBytes (s : State) (base : Nat) (x : RegIx) :
    s.dumpRegs base (regsUpTo x) = s.storeBytes base ((regsUpTo x).map s.getV) := by
  fin_cases x <;> rfl

theorem length_regsUpTo (x : RegIx) : (regsUpTo x).length = x.val + 1 := by
  revert x
  decide

theorem getElem_regsUpTo (x k : RegIx) (h : k.val < (regsUpTo x).length) : (regsUpTo x)[k.val] = k := by
  revert x k
  decide

/-- A load of registers changes V only. -/
theorem State.loadRegs_frame (base : Nat) (ks : List RegIx) (s : State) :
    s.loadRegs base ks = { s with V := (s.loadRegs base ks).V } := by
  induction ks generalizing s with
  | nil => rfl
  | cons k ks ih =>
    unfold State.loadRegs
    rw [ih]
    rfl

/-- A load gives each loaded register the byte at its offset, and leaves the others. -/
theorem State.getV_loadRegs (base : Nat) (ks : List RegIx) (s : State) (k : RegIx) :
    (s.loadRegs base ks).getV k = if k ∈ ks then s.memRead (base + k.val) else s.getV k := by
  induction ks generalizing s with
  | nil => simp [State.loadRegs]
  | cons j ks ih =>
    unfold State.loadRegs
    rw [ih, State.memRead_setV, State.getV_setV]
    by_cases h1 : k ∈ ks
    · simp [h1]
    · by_cases h2 : k = j
      · subst h2; simp [h1]
      · simp [h1, h2]

/-- What is loaded depends on memory and V alone. -/
theorem State.loadRegs_V_congr {s u : State} (base : Nat) (ks : List RegIx) (hm : s.mem = u.mem) (hv : s.V = u.V) :
    (s.loadRegs base ks).V = (u.loadRegs base ks).V := by
  induction ks generalizing s u with
  | nil => exact hv
  | cons k ks ih =>
    refine ih hm ?_
    simp [hv, State.memRead_congr hm]

/-! ### The stack -/

/-- A push below 16 entries writes the next entry and raises the depth (R24). -/
theorem State.push_of_lt {s : State} (v : Word) (h : s.sp.val < 16) :
    s.push v = some { s with stack := s.stack.set s.sp.val v h, sp := ⟨s.sp.val + 1, Nat.succ_lt_succ h⟩ } := by
  simp [State.push, h]

/-- A push at 16 entries is refused (R24). -/
theorem State.push_full {s : State} (v : Word) (h : ¬ s.sp.val < 16) : s.push v = none := by
  simp [State.push, h]

/-- A pop of an empty stack is refused (R24). -/
theorem State.pop_empty {s : State} (h : s.sp.val = 0) : s.pop = none := by
  simp [State.pop, h]

/-- A pop gives the top entry and lowers the depth (R24). -/
theorem State.pop_of_pos {s : State} (h : 0 < s.sp.val) :
    ∃ (h1 : s.sp.val - 1 < 16) (h2 : s.sp.val - 1 < 17),
      s.pop = some (s.stack[s.sp.val - 1], { s with sp := ⟨s.sp.val - 1, h2⟩ }) :=
  ⟨by have := s.sp.isLt; omega, by have := s.sp.isLt; omega, by simp [State.pop, h]⟩

/-! ### The ways a step ends -/

theorem goTo_eq_next {target : Word} {s t : State} :
    goTo target s = .next t ↔ t = { s with pc := target, result := some .continued } := by
  simp [goTo, eq_comm]

theorem proceed_eq_next {s t : State} :
    proceed s = .next t ↔ t = { s with pc := s.pc + 2, result := some .continued } := goTo_eq_next

theorem skipIf_eq_next {c : Bool} {s t : State} :
    skipIf c s = .next t ↔ t = { s with pc := s.pc + (if c then 4 else 2), result := some .continued } :=
  goTo_eq_next

theorem fatal_eq_next {r : FatalReason} {s t : State} :
    fatal r s = .next t ↔ t = { s with run := .halted r, result := some (.fatal r) } := by
  simp [fatal, eq_comm]

theorem stayHalted_eq_next {r : FatalReason} {s t : State} :
    stayHalted r s = .next t ↔ t = { s with result := some (.fatal r) } := by
  simp [stayHalted, eq_comm]

theorem reportUnknown_eq_next {w : Word} {s t : State} :
    reportUnknown w s = .next t ↔ t = { s with pc := s.pc + 2, result := some (.unknownOpcode w) } := by
  simp [reportUnknown, eq_comm]

theorem block_eq_next {s t : State} :
    block s = .next t ↔ t = { s with run := .waiting, keyPrev := s.key, result := some .blocked } := by
  simp [block, eq_comm]

end Sys2Proof.Machine
end

