-- ==== Sys2Proof/Laws/Alu.lean ====
section
/-! SUPPORT. The arithmetic of the ALU and the operand forms as numbers. -/

namespace Sys2Proof.Machine

theorem toNat_sumByte (a b : Byte) : (sumByte a b).toNat = (a.toNat + b.toNat) % 256 := by
  simp [sumByte]

theorem toNat_diffByte (a b : Byte) :
    (diffByte a b).toNat = if b.toNat ≤ a.toNat then a.toNat - b.toNat else a.toNat + 256 - b.toNat := by
  have ha := a.isLt
  have hb := b.isLt
  unfold diffByte
  split <;> simp only [BitVec.toNat_ofNat] <;> omega

theorem toNat_halfByte (b : Byte) : (halfByte b).toNat = b.toNat / 2 := by
  have := b.isLt
  simp only [halfByte, BitVec.toNat_ofNat]
  omega

theorem toNat_doubleByte (b : Byte) : (doubleByte b).toNat = b.toNat * 2 % 256 := by
  simp [doubleByte]

theorem toNat_flagByte (c : Bool) : (flagByte c).toNat = if c then 1 else 0 := by
  cases c <;> rfl

theorem toNat_zext16 (a : Addr12) : (zext16 a).toNat = a.toNat := by
  have := a.isLt
  simp only [zext16, BitVec.toNat_setWidth]
  omega

theorem toNat_zextByte (b : Byte) : (zextByte b).toNat = b.toNat := by
  have := b.isLt
  simp only [zextByte, BitVec.toNat_setWidth]
  omega

theorem val_lowNibble (b : Byte) : (lowNibble b).val = b.toNat % 16 := by
  rfl

theorem toNat_glyphAddr (b : Byte) : (glyphAddr b).toNat = 0x050 + 5 * (b.toNat % 16) := by
  have := b.isLt
  simp only [glyphAddr, fontBase, glyphBytes, val_lowNibble, BitVec.toNat_ofNat]
  omega

end Sys2Proof.Machine
end

