-- ==== Sys2Proof/Laws/Decode.lean ====
section
/-! SUPPORT. The words the encoder builds as numbers, the fields of a word, and what the class mask of the opcode map
selects (spec/30_encoding.md R81, R84). -/

namespace Sys2Proof

theorem toNat_encodeNNN {c : Nat} (h : c < 16) (nnn : Addr12) :
    (encodeNNN c nnn).toNat = c * 0x1000 + nnn.toNat := by
  have := nnn.isLt
  simp only [encodeNNN, BitVec.toNat_ofNat]
  omega

theorem toNat_encodeXNN {c : Nat} (h : c < 16) (x : RegIx) (nn : Byte) :
    (encodeXNN c x nn).toNat = c * 0x1000 + x.val * 0x100 + nn.toNat := by
  have := nn.isLt
  have := x.isLt
  simp only [encodeXNN, BitVec.toNat_ofNat]
  omega

theorem toNat_encodeXYN {c : Nat} (h : c < 16) (x y : RegIx) (n : Nat) :
    (encodeXYN c x y n).toNat = c * 0x1000 + x.val * 0x100 + y.val * 0x10 + n % 0x10 := by
  have := x.isLt
  have := y.isLt
  simp only [encodeXYN, BitVec.toNat_ofNat]
  omega

theorem fieldClass_lt (w : Word) : fieldClass w < 16 := by
  have := w.isLt
  simp only [fieldClass]
  omega

theorem val_nibble (n : Nat) : (nibble n).val = n % 16 := rfl

theorem toNat_fieldNN (w : Word) : (fieldNN w).toNat = w.toNat % 256 := by
  simp [fieldNN]

theorem toNat_fieldNNN (w : Word) : (fieldNNN w).toNat = w.toNat % 4096 := by
  simp [fieldNNN]

/-- A word is its two bytes, high byte first (R55). -/
theorem toNat_wordOfBytes (hi lo : Byte) : (wordOfBytes hi lo).toNat = hi.toNat * 0x100 + lo.toNat := by
  have := lo.isLt
  simp only [wordOfBytes, BitVec.toNat_append]
  rw [← Nat.shiftLeft_add_eq_or_of_lt this, Nat.shiftLeft_eq]

/-- Splitting a word into its bytes and joining them again gives the word (R55). -/
theorem wordOfBytes_hiByte_loByte (w : Word) : wordOfBytes (hiByte w) (loByte w) = w := by
  have := w.isLt
  apply BitVec.eq_of_toNat_eq
  rw [toNat_wordOfBytes]
  simp only [hiByte, loByte, BitVec.toNat_ofNat]
  omega

/-- The class mask keeps the class and clears the rest (R84). -/
theorem and_classMask (w : Word) : w &&& 0xF000#16 = BitVec.ofNat 16 (fieldClass w * 0x1000) := by
  have h : w &&& 0xF000#16 = (w >>> 12) <<< 12 := by
    ext i hi
    interval_cases i <;> simp
  rw [h]
  apply BitVec.eq_of_toNat_eq
  simp only [BitVec.toNat_shiftLeft, BitVec.toNat_ushiftRight, BitVec.toNat_ofNat, Nat.shiftLeft_eq,
    Nat.shiftRight_eq_div_pow, fieldClass]

/-- A row whose mask is the class mask selects the words of its class (R84). -/
theorem selects_classMask (w : Word) (c : Nat) (h : fieldClass w = c) :
    OpcodeRow.selects ⟨0xF000, BitVec.ofNat 16 (c * 0x1000)⟩ w = true := by
  simp only [OpcodeRow.selects, decide_eq_true_eq]
  exact (and_classMask w).trans (by rw [h])

end Sys2Proof
end

