-- ==== Sys2Proof/Laws/Display.lean ====
section
/-! SUPPORT. The framebuffer's laws and what plotting one pixel does (spec/43_display.md R171). -/

namespace Sys2Proof.Machine

theorem Framebuffer.pixel_setPixel (fb : Framebuffer) (x x' : Fin 64) (y y' : Fin 32) (b : Bool) :
    (fb.setPixel x y b).pixel x' y' = if x' = x ∧ y' = y then b else fb.pixel x' y' := by
  simp only [Framebuffer.pixel, Framebuffer.setPixel, Fin.getElem_fin, Vector.getElem_set]
  by_cases hy : y' = y
  · subst hy
    simp only [if_true, Vector.getElem_set, and_true]
    by_cases hx : x' = x
    · subst hx; simp
    · have : x.val ≠ x'.val := fun h => hx (Fin.ext h.symm)
      simp [hx, this]
  · have : y.val ≠ y'.val := fun h => hy (Fin.ext h.symm)
    simp [hy, this]

/-- Two framebuffers with the same pixels are the same. -/
theorem Framebuffer.ext_pixel {fb fb' : Framebuffer} (h : ∀ x y, fb.pixel x y = fb'.pixel x y) : fb = fb' := by
  apply Vector.ext
  intro y hy
  apply Vector.ext
  intro x hx
  exact h ⟨x, hx⟩ ⟨y, hy⟩

theorem Framebuffer.pixel_clear (x : Fin 64) (y : Fin 32) : Framebuffer.clear.pixel x y = false := by
  simp [Framebuffer.pixel, Framebuffer.clear]

/-- A sprite pixel at an unreduced position lands on a cell: itself under `Q_CLIP`, wrapped otherwise (R171). -/
abbrev Lands (clip : Bool) (px py : Nat) (x : Fin 64) (y : Fin 32) : Prop :=
  if clip then px = x.val ∧ py = y.val else px % 64 = x.val ∧ py % 32 = y.val

/-- A position lands on at most one cell. -/
theorem Lands.unique {clip : Bool} {px py : Nat} {x x' : Fin 64} {y y' : Fin 32} (h : Lands clip px py x y)
    (h' : Lands clip px py x' y') : x' = x ∧ y' = y := by
  cases clip <;> simp only [Lands, Bool.false_eq_true, if_false, if_true] at h h' <;>
    exact ⟨Fin.ext (by omega), Fin.ext (by omega)⟩

/-- Plotting flips the cell the position lands on. -/
theorem Drawing.pixel_plot (clip : Bool) (px py : Nat) (d : Drawing) (x : Fin 64) (y : Fin 32) :
    (d.plot clip px py).fb.pixel x y = if Lands clip px py x y then !d.fb.pixel x y else d.fb.pixel x y := by
  have hx := x.isLt
  have hy := y.isLt
  unfold Drawing.plot
  split
  · next h =>
    simp only [Bool.and_eq_true, Bool.or_eq_true, decide_eq_true_eq] at h
    obtain ⟨hc, h⟩ := h
    subst hc
    rw [if_neg]
    simp only [Lands, if_true]
    omega
  · next h =>
    rw [Framebuffer.pixel_setPixel]
    have key : (x = wrapX px ∧ y = wrapY py) ↔ Lands clip px py x y := by
      simp only [Fin.ext_iff, wrapX, wrapY]
      cases clip with
      | false =>
        simp only [Lands, Bool.false_eq_true, if_false]
        omega
      | true =>
        simp only [Bool.true_and, Bool.or_eq_true, decide_eq_true_eq, not_or, Nat.not_lt] at h
        simp only [Lands, if_true]
        omega
    by_cases hl : Lands clip px py x y
    · obtain ⟨rfl, rfl⟩ := key.mpr hl
      simp [hl]
    · simp [hl, mt key.mp hl]

/-- Plotting collides when the cell it lands on is lit. -/
theorem Drawing.collision_plot (clip : Bool) (px py : Nat) (d : Drawing) :
    (d.plot clip px py).collision = true ↔
      d.collision = true ∨ ∃ x y, Lands clip px py x y ∧ d.fb.pixel x y = true := by
  unfold Drawing.plot
  split
  · next h =>
    simp only [Bool.and_eq_true, Bool.or_eq_true, decide_eq_true_eq] at h
    obtain ⟨hc, h⟩ := h
    subst hc
    constructor
    · exact Or.inl
    · rintro (h' | ⟨x, y, hl, -⟩)
      · exact h'
      · have hx := x.isLt
        have hy := y.isLt
        simp only [Lands, if_true] at hl
        omega
  · next h =>
    have hl : Lands clip px py (wrapX px) (wrapY py) := by
      cases clip with
      | false => simp [Lands, wrapX, wrapY]
      | true =>
        simp only [Bool.true_and, Bool.or_eq_true, decide_eq_true_eq, not_or, Nat.not_lt] at h
        simp only [Lands, if_true, wrapX, wrapY]
        omega
    simp only [Bool.or_eq_true]
    constructor
    · rintro (h' | h')
      · exact .inl h'
      · exact .inr ⟨_, _, hl, h'⟩
    · rintro (h' | ⟨x, y, hl', hp⟩)
      · exact .inl h'
      · obtain ⟨rfl, rfl⟩ := Lands.unique hl hl'
        exact .inr hp

end Sys2Proof.Machine
end

