-- ==== Sys2Proof/Laws/Step.lean ====
section
/-! SUPPORT. What one step can do, said once (spec/60_exceptions.md R201), and the ways of the host's transitions. -/

namespace Sys2Proof.Machine

theorem State.canFetch_iff {s : State} : s.canFetch = true ↔ s.pc.toNat ≤ 4094 := by
  unfold State.canFetch
  exact decide_eq_true_iff

/-- If a step answers a next state, then it is one of the four cases of R201: halted, out of bounds, an unknown word,
or the execution of the decoded instruction. -/
theorem step_cases {s t : State} (h : step s = .next t) :
    (∃ r, s.run = .halted r ∧ t = { s with result := some (.fatal r) }) ∨
    ((∀ r, s.run ≠ .halted r) ∧ 4094 < s.pc.toNat ∧
      t = { s with run := .halted .fetchOutOfBounds, result := some (.fatal .fetchOutOfBounds) }) ∨
    ((∀ r, s.run ≠ .halted r) ∧ s.pc.toNat ≤ 4094 ∧ ∃ w, decode s.fetchWord = .unknown w ∧
      t = { s with pc := s.pc + 2, result := some (.unknownOpcode w) }) ∨
    ((∀ r, s.run ≠ .halted r) ∧ s.pc.toNat ≤ 4094 ∧ ∃ i, decode s.fetchWord = .known i ∧ exec i s = .next t) := by
  unfold step at h
  split at h
  · next r hr => exact .inl ⟨r, hr, stayHalted_eq_next.mp h⟩
  · next hr =>
    refine .inr ?_
    split at h
    · next hf =>
      refine .inr ?_
      have hf' := State.canFetch_iff.mp hf
      split at h
      · next i hi => exact .inr ⟨hr, hf', i, hi, h⟩
      · next w hw => exact .inl ⟨hr, hf', w, hw, reportUnknown_eq_next.mp h⟩
    · next hf =>
      refine .inl ⟨hr, ?_, fatal_eq_next.mp h⟩
      have := mt State.canFetch_iff.mpr hf
      omega

/-- `CALL` answers a push and a jump, or the fatal overflow (R102). -/
theorem execCall_cases {nnn : Addr12} {s t : State} (h : execCall nnn s = .next t) :
    (∃ u, s.push (s.pc + 2) = some u ∧ t = { u with pc := zext16 nnn, result := some .continued }) ∨
    (s.push (s.pc + 2) = none ∧ t = { s with run := .halted .stackOverflow, result := some (.fatal .stackOverflow) }) := by
  unfold execCall at h
  split at h
  · next u hu => exact .inl ⟨u, hu, goTo_eq_next.mp h⟩
  · next hn => exact .inr ⟨hn, fatal_eq_next.mp h⟩

/-- `RET` answers a pop, or the fatal underflow (R103). -/
theorem execRet_cases {s t : State} (h : execRet s = .next t) :
    (∃ a u, s.pop = some (a, u) ∧ t = { u with pc := a, result := some .continued }) ∨
    (s.pop = none ∧ t = { s with run := .halted .stackUnderflow, result := some (.fatal .stackUnderflow) }) := by
  unfold execRet at h
  split at h
  · next a u hu => exact .inl ⟨a, u, hu, goTo_eq_next.mp h⟩
  · next hn => exact .inr ⟨hn, fatal_eq_next.mp h⟩

/-- `LD Vx,K` blocks, completes at the lowest fresh key, or does nothing on a halted machine (R182). -/
theorem execLdVxK_cases {x : RegIx} {s t : State} (h : execLdVxK x s = .next t) :
    ((s.run = .running ∨ (s.run = .waiting ∧ lowestFresh s.key s.keyPrev = none)) ∧
      t = { s with run := .waiting, keyPrev := s.key, result := some .blocked }) ∨
    (s.run = .waiting ∧ ∃ k, lowestFresh s.key s.keyPrev = some k ∧
      t = { s.setV x (BitVec.ofNat 8 k.val) with run := .running, pc := s.pc + 2, result := some .continued }) ∨
    (∃ r, s.run = .halted r ∧ t = { s with result := some (.fatal r) }) := by
  unfold execLdVxK at h
  split at h
  · next hr => exact .inl ⟨.inl hr, block_eq_next.mp h⟩
  · next hr =>
    split at h
    · next k hk => exact .inr (.inl ⟨hr, k, hk, proceed_eq_next.mp h⟩)
    · next hk => exact .inl ⟨.inr ⟨hr, hk⟩, block_eq_next.mp h⟩
  · next r hr => exact .inr (.inr ⟨r, hr, stayHalted_eq_next.mp h⟩)

theorem mem_allIx (j : Fin 16) : j ∈ allIx := by
  revert j
  decide

/-- The lowest fresh key is fresh, and no lower key is (R182). -/
theorem lowestFresh_spec {now prev : Vector Bool 16} {k : KeyIx} (h : lowestFresh now prev = some k) :
    (now[k] = true ∧ prev[k] = false) ∧ ∀ j : KeyIx, j < k → ¬ (now[j] = true ∧ prev[j] = false) := by
  unfold lowestFresh at h
  obtain ⟨hk, as, bs, heq, hall⟩ := List.find?_eq_some_iff_append.mp h
  refine ⟨by simpa using hk, fun j hj => ?_⟩
  have hmem : j ∈ as := by
    have hsorted : (allIx).Pairwise (· < ·) := by decide
    rw [heq] at hsorted
    have hj' : j ∈ allIx := mem_allIx j
    rw [heq] at hj'
    rcases List.mem_append.mp hj' with h1 | h1
    · exact h1
    · exfalso
      rcases List.mem_cons.mp h1 with rfl | h2
      · exact absurd hj (lt_irrefl _)
      · have := (List.pairwise_cons.mp (List.pairwise_append.mp hsorted).2.1).1 j h2
        exact absurd hj (not_lt.mpr (le_of_lt this))
  have := hall j hmem
  intro hf
  simp [hf.1, hf.2] at this

/-- No fresh key is found when there is none (R182). -/
theorem lowestFresh_none {now prev : Vector Bool 16} :
    lowestFresh now prev = none ↔ ∀ k : KeyIx, ¬ (now[k] = true ∧ prev[k] = false) := by
  unfold lowestFresh
  rw [List.find?_eq_none]
  constructor
  · intro h k
    have hk : k ∈ allIx := mem_allIx k
    simpa using h k hk
  · intro h k _
    simpa using h k

end Sys2Proof.Machine
end

