-- ==== Sys2Proof/Laws/HostOps.lean ====
section
/-! SUPPORT. The host's operations: the canonical form of a loaded image (spec/20_memory.md R62), the countdown of a
timer (spec/60_exceptions.md R211), and the word placed where the next step fetches. -/

namespace Sys2Proof.Machine

theorem toNat_countDown (t : Byte) : (countDown t).toNat = t.toNat - 1 := by
  have := t.isLt
  simp only [countDown, BitVec.toNat_ofNat]
  omega

theorem isFont_false_of_gt {a : Nat} (h : 0x09F < a) : isFont a = false := by
  have : ¬ a ≤ 0x09F := by omega
  simp [isFont, this]

theorem background_of_gt {a : Nat} (h : 0x09F < a) : background a = 0 := by
  simp [background, isFont_false_of_gt h]

/-- A loaded image is in canonical form. -/
theorem imageCells_wf {a : Nat} {bs : List Byte} (ha : 0x09F < a) (hlen : a + bs.length ≤ Config.memSize) :
    (imageCells a bs).wfFrom a = true := by
  induction bs generalizing a with
  | nil => rfl
  | cons b bs ih =>
    simp only [List.length_cons] at hlen
    have h := ih (a := a + 1) (by omega) (by omega)
    unfold imageCells
    split
    · exact Memory.wfFrom_mono h (by omega)
    · next hb =>
      have hm : a < Config.memSize := by omega
      simp [Memory.wfFrom, h, hm, isFont_false_of_gt ha, background_of_gt ha]
      exact hb

/-- Reset with an image that fits: nothing of the state before it is left but the counter of draws (R240). -/
theorem hostReset_of_fits {image : List Byte} (s : State) (h : imageFits image = true) :
    s.hostReset image =
      (.ok, { State.reset with mem := imageCells Config.progBase image, draws := s.draws }) := by
  simp only [State.hostReset, h, if_true]

/-- Reset with an image that does not fit changes nothing (R241). -/
theorem hostReset_of_too_large {image : List Byte} (s : State) (h : imageFits image = false) :
    s.hostReset image = (.tooLarge, s) := by
  simp only [State.hostReset, h, Bool.false_eq_true, if_false]

/-- A reset machine's memory is in canonical form, with or without an image. -/
theorem hostReset_wf (image : List Byte) (s : State) (h : imageFits image = true) :
    (s.hostReset image).2.mem.wf = true := by
  have hl : image.length ≤ Config.maxProg := by simpa [imageFits] using h
  rw [hostReset_of_fits s h]
  refine Memory.wfFrom_mono (imageCells_wf (a := Config.progBase) (by decide) ?_) (Nat.zero_le _)
  simp only [Config.maxProg, Config.memSize, Config.progBase] at *
  omega

/-- Where `pc` can hold an instruction, the word placed by `withFetchWord` is the word the next step fetches. -/
theorem fetchWord_withFetchWord {s : State} (hw : s.mem.wf = true) (hp : canHold s.pc = true) (w : Nat)
    (hlt : w < 2 ^ 16) : (s.withFetchWord 16 w).fetchWord = BitVec.ofNat 16 w := by
  have hp' := hp
  simp only [canHold, Bool.and_eq_true, decide_eq_true_eq, Bool.not_eq_true'] at hp'
  obtain ⟨⟨h1, h2⟩, h3⟩ := hp'
  have hm : Config.memSize = 4096 := rfl
  simp only [State.withFetchWord, hp, if_true, Nat.mod_eq_of_lt hlt]
  set word : Word := BitVec.ofNat 16 w
  set u : State := { s with run := _ }
  have hpc : (State.storeBytes s.pc.toNat [hiByte word, loByte word] u).pc = s.pc := by
    rw [State.storeBytes_frame]
  have hi := State.memRead_storeBytes_inside (s := u) s.pc.toNat 0 [hiByte word, loByte word] hw (by simp [hm]) (by simp)
    (by rw [Nat.mod_eq_of_lt (by omega)]; exact h2)
  have lo := State.memRead_storeBytes_inside (s := u) s.pc.toNat 1 [hiByte word, loByte word] hw (by simp [hm]) (by simp)
    (by rw [Nat.mod_eq_of_lt (by omega)]; exact h3)
  unfold State.fetchWord
  rw [Nat.add_zero] at hi
  rw [hpc, hi, lo]
  exact wordOfBytes_hiByte_loByte word

end Sys2Proof.Machine
end

