-- ==== Sys2Proof/Laws/PerInstr.lean ====
section
/-! SUPPORT. Statements for all instructions, one lemma per constructor. Family `SelectedByRow`: the word the encoder
writes for an instruction is one that the instruction's row of the opcode map selects (spec/30_encoding.md R84), so the
encoder, written from the formats of R82, agrees with the masks and matches of R84. -/

namespace Sys2Proof.Laws.SelectedByRow

/-- The instruction's row selects the instruction's word (R84). -/
def Statement (i : Instr) : Prop := i.row.selects (encode i) = true

theorem nnn {c : Nat} (h : c < 16) (a : Addr12) :
    OpcodeRow.selects ⟨0xF000, BitVec.ofNat 16 (c * 0x1000)⟩ (encodeNNN c a) = true := by
  apply selects_classMask
  have := a.isLt
  simp only [fieldClass, toNat_encodeNNN h]
  omega

theorem xnn {c : Nat} (h : c < 16) (x : RegIx) (b : Byte) :
    OpcodeRow.selects ⟨0xF000, BitVec.ofNat 16 (c * 0x1000)⟩ (encodeXNN c x b) = true := by
  apply selects_classMask
  have := b.isLt
  have := x.isLt
  simp only [fieldClass, toNat_encodeXNN h]
  omega

theorem xyn {c : Nat} (h : c < 16) (x y : RegIx) (n : Nat) :
    OpcodeRow.selects ⟨0xF000, BitVec.ofNat 16 (c * 0x1000)⟩ (encodeXYN c x y n) = true := by
  apply selects_classMask
  have := y.isLt
  have := x.isLt
  simp only [fieldClass, toNat_encodeXYN h]
  omega

theorem cls : Statement .cls := by unfold Statement; decide
theorem ret : Statement .ret := by unfold Statement; decide
theorem jp (a : Addr12) : Statement (.jp a) := nnn (by decide) a
theorem call (a : Addr12) : Statement (.call a) := nnn (by decide) a
theorem seImm (x : RegIx) (b : Byte) : Statement (.seImm x b) := xnn (by decide) x b
theorem sneImm (x : RegIx) (b : Byte) : Statement (.sneImm x b) := xnn (by decide) x b
theorem seReg (x y : RegIx) : Statement (.seReg x y) := by revert x y; unfold Statement; decide
theorem ldImm (x : RegIx) (b : Byte) : Statement (.ldImm x b) := xnn (by decide) x b
theorem addImm (x : RegIx) (b : Byte) : Statement (.addImm x b) := xnn (by decide) x b
theorem ldReg (x y : RegIx) : Statement (.ldReg x y) := by revert x y; unfold Statement; decide
theorem orReg (x y : RegIx) : Statement (.orReg x y) := by revert x y; unfold Statement; decide
theorem andReg (x y : RegIx) : Statement (.andReg x y) := by revert x y; unfold Statement; decide
theorem xorReg (x y : RegIx) : Statement (.xorReg x y) := by revert x y; unfold Statement; decide
theorem addReg (x y : RegIx) : Statement (.addReg x y) := by revert x y; unfold Statement; decide
theorem sub (x y : RegIx) : Statement (.sub x y) := by revert x y; unfold Statement; decide
theorem shr (x y : RegIx) : Statement (.shr x y) := by revert x y; unfold Statement; decide
theorem subn (x y : RegIx) : Statement (.subn x y) := by revert x y; unfold Statement; decide
theorem shl (x y : RegIx) : Statement (.shl x y) := by revert x y; unfold Statement; decide
theorem sneReg (x y : RegIx) : Statement (.sneReg x y) := by revert x y; unfold Statement; decide
theorem ldI (a : Addr12) : Statement (.ldI a) := nnn (by decide) a
theorem jpV0 (a : Addr12) : Statement (.jpV0 a) := nnn (by decide) a
theorem rnd (x : RegIx) (b : Byte) : Statement (.rnd x b) := xnn (by decide) x b
theorem drw (x y : RegIx) (n : Nat) : Statement (.drw x y n) := xyn (by decide) x y n
theorem skp (x : RegIx) : Statement (.skp x) := by revert x; unfold Statement; decide
theorem sknp (x : RegIx) : Statement (.sknp x) := by revert x; unfold Statement; decide
theorem ldVxDT (x : RegIx) : Statement (.ldVxDT x) := by revert x; unfold Statement; decide
theorem ldVxK (x : RegIx) : Statement (.ldVxK x) := by revert x; unfold Statement; decide
theorem ldDTVx (x : RegIx) : Statement (.ldDTVx x) := by revert x; unfold Statement; decide
theorem ldSTVx (x : RegIx) : Statement (.ldSTVx x) := by revert x; unfold Statement; decide
theorem addI (x : RegIx) : Statement (.addI x) := by revert x; unfold Statement; decide
theorem ldF (x : RegIx) : Statement (.ldF x) := by revert x; unfold Statement; decide
theorem ldB (x : RegIx) : Statement (.ldB x) := by revert x; unfold Statement; decide
theorem ldMemVx (x : RegIx) : Statement (.ldMemVx x) := by revert x; unfold Statement; decide
theorem ldVxMem (x : RegIx) : Statement (.ldVxMem x) := by revert x; unfold Statement; decide

end Sys2Proof.Laws.SelectedByRow
end

