-- ==== Sys2Proof/Tests/Slice0.lean ====
section
/-! SUPPORT. Tests of the model: ill-formed terms are refused; a word of every instruction, written out bit by bit from
spec/30_encoding.md R84, decodes to it; the vectors of spec/95_test_vectors.md (named in each comment, computed from the
rules by the spec's author); and, for every statement with hypotheses, a concrete case that meets them. -/

namespace Sys2Proof.Tests

open Sys2Proof Sys2Proof.Machine

/-! ### Helpers -/

/-- Does an outcome hold a next state that passes the check? -/
def holds (o : Out) (p : State → Bool) : Bool :=
  match o with
  | .next t => p t
  | .fault _ => false
  | .refused _ => false

/-- The reset state with two registers and `I` set. -/
def st (x : RegIx) (a : Byte) (y : RegIx) (b : Byte) (i : Word) : State :=
  { (State.reset.setV x a).setV y b with I := i }

/-- Is exactly this list of pixels lit, of the first `h` rows and the last two? -/
def litAre (fb : Framebuffer) (ps : List (Fin 64 × Fin 32)) : Bool :=
  ps.all (fun p => fb.pixel p.1 p.2) && decide ((fb.toList.map (fun r => r.toList.countP id)).sum = ps.length)

/-! ### Well-formedness -/

/-- A row count above a nibble is refused (R83). -/
theorem test_wellFormed_refuses_sixteen_rows : (Instr.drw 0 0 16).wellFormed = false := by decide
theorem test_wellFormed_takes_fifteen_rows : (Instr.drw 0 0 15).wellFormed = true := by decide
/-- An image of 3585 bytes is refused, one of 3584 taken (R62, S1). -/
theorem test_imageFits_refuses_3585 : imageFits (List.replicate 3585 0) = false := by
  unfold imageFits; rw [List.length_replicate]; decide
theorem test_imageFits_takes_3584 : imageFits (List.replicate 3584 0) = true := by
  unfold imageFits; rw [List.length_replicate]; decide

/-! ### Decoding, one word of every instruction -/

theorem test_decode_cls : decode 0b0000000011100000#16 = .known .cls := by decide
theorem test_decode_ret : decode 0b0000000011101110#16 = .known .ret := by decide
theorem test_decode_jp : decode 0b0001001000110100#16 = .known (.jp 0x234) := by decide
theorem test_decode_call : decode 0b0010001000010000#16 = .known (.call 0x210) := by decide
theorem test_decode_seImm : decode 0b0011000110100101#16 = .known (.seImm 1 0xA5) := by decide
theorem test_decode_sneImm : decode 0b0100001000010001#16 = .known (.sneImm 2 0x11) := by decide
theorem test_decode_seReg : decode 0b0101001101000000#16 = .known (.seReg 3 4) := by decide
theorem test_decode_ldImm : decode 0b0110101000000010#16 = .known (.ldImm 10 0x02) := by decide
theorem test_decode_addImm : decode 0b0111000111111111#16 = .known (.addImm 1 0xFF) := by decide
theorem test_decode_ldReg : decode 0b1000000100100000#16 = .known (.ldReg 1 2) := by decide
theorem test_decode_orReg : decode 0b1000000100100001#16 = .known (.orReg 1 2) := by decide
theorem test_decode_andReg : decode 0b1000000100100010#16 = .known (.andReg 1 2) := by decide
theorem test_decode_xorReg : decode 0b1000000100100011#16 = .known (.xorReg 1 2) := by decide
theorem test_decode_addReg : decode 0b1000101010110100#16 = .known (.addReg 10 11) := by decide
theorem test_decode_sub : decode 0b1000000100100101#16 = .known (.sub 1 2) := by decide
theorem test_decode_shr : decode 0b1000000100100110#16 = .known (.shr 1 2) := by decide
theorem test_decode_subn : decode 0b1000000100100111#16 = .known (.subn 1 2) := by decide
theorem test_decode_shl : decode 0b1000000100101110#16 = .known (.shl 1 2) := by decide
theorem test_decode_sneReg : decode 0b1001001101000000#16 = .known (.sneReg 3 4) := by decide
theorem test_decode_ldI : decode 0b1010001100000000#16 = .known (.ldI 0x300) := by decide
theorem test_decode_jpV0 : decode 0b1011001100000000#16 = .known (.jpV0 0x300) := by decide
theorem test_decode_rnd : decode 0b1100000100001111#16 = .known (.rnd 1 0x0F) := by decide
theorem test_decode_drw : decode 0b1101000100100101#16 = .known (.drw 1 2 5) := by decide
theorem test_decode_skp : decode 0b1110001110011110#16 = .known (.skp 3) := by decide
theorem test_decode_sknp : decode 0b1110001110100001#16 = .known (.sknp 3) := by decide
theorem test_decode_ldVxDT : decode 0b1111010000000111#16 = .known (.ldVxDT 4) := by decide
theorem test_decode_ldVxK : decode 0b1111001100001010#16 = .known (.ldVxK 3) := by decide
theorem test_decode_ldDTVx : decode 0b1111001100010101#16 = .known (.ldDTVx 3) := by decide
theorem test_decode_ldSTVx : decode 0b1111001100011000#16 = .known (.ldSTVx 3) := by decide
theorem test_decode_addI : decode 0b1111001000011110#16 = .known (.addI 2) := by decide
theorem test_decode_ldF : decode 0b1111000000101001#16 = .known (.ldF 0) := by decide
theorem test_decode_ldB : decode 0b1111001000110011#16 = .known (.ldB 2) := by decide
theorem test_decode_ldMemVx : decode 0b1111001001010101#16 = .known (.ldMemVx 2) := by decide
theorem test_decode_ldVxMem : decode 0b1111001001100101#16 = .known (.ldVxMem 2) := by decide

/-- T-DEC-1, 3, 4, 6, 7, 8, 9, 10: unknown words. -/
theorem test_decode_unknown :
    [0x0000, 0x00E1, 0x5121, 0x8ABF, 0x9AB1, 0xE19F, 0xF1FF, 0xF075].all
      (fun w : Word => decide (decode w = .unknown w)) = true := by decide

/-- R55: the bytes 6A 02 are the word 0x6A02; a byte alone is rejected by name. -/
theorem test_decodeBytes_big_endian : decodeBytes [0x6A, 0x02, 0x6B] = .instr (.ldImm 10 2) [0x6B] := by decide
theorem test_decodeBytes_truncated : decodeBytes [0x6A] = .rejected .truncated := by decide
theorem test_decodeTableWord : decodeTableWord 16 0x8AB4 = some (.addReg 10 11) := by decide

/-! ### Control transfer -/

/-- T-CT-1. -/
theorem test_jp : holds (exec (.jp 0x234) State.reset) (fun t => t.pc == 0x234) = true := by decide
/-- T-CT-5. -/
theorem test_call : holds (exec (.call 0x210) State.reset)
    (fun t => t.pc == 0x210 && t.stack[0] == 0x202 && t.sp == 1) = true := by decide
/-- T-CT-6: the 17th nested call is fatal. -/
theorem test_call_overflow : holds (exec (.call 0x200) { State.reset with sp := 16 })
    (fun t => t.run == .halted .stackOverflow && t.pc == 0x200 && t.sp == 16) = true := by decide
/-- T-CT-8. -/
theorem test_ret : holds (exec .ret { State.reset with stack := State.reset.stack.set 0 0x206, sp := 1 })
    (fun t => t.pc == 0x206 && t.sp == 0) = true := by decide
/-- T-CT-7. -/
theorem test_ret_underflow : holds (exec .ret State.reset)
    (fun t => t.run == .halted .stackUnderflow && t.pc == 0x200) = true := by decide
/-- T-CT-11: the sum is not reduced. -/
theorem test_jpV0 : holds (exec (.jpV0 0xFFF) (st 0 0xFF 1 0 0)) (fun t => t.pc == 0x10FE) = true := by decide
/-- T-CT-12, 13. -/
theorem test_seImm_taken : holds (exec (.seImm 1 0x00) State.reset) (fun t => t.pc == 0x204) = true := by decide
theorem test_seImm_not_taken : holds (exec (.seImm 1 0x00) (st 1 9 0 0 0)) (fun t => t.pc == 0x202) = true := by decide
/-- T-CT-14, 15. -/
theorem test_sneImm_taken : holds (exec (.sneImm 2 0x11) (st 2 0x10 0 0 0)) (fun t => t.pc == 0x204) = true := by decide
theorem test_sneImm_not_taken : holds (exec (.sneImm 2 0x10) (st 2 0x10 0 0 0)) (fun t => t.pc == 0x202) = true := by decide
/-- T-CT-16. -/
theorem test_seReg : holds (exec (.seReg 3 4) (st 3 0x7F 4 0x7F 0)) (fun t => t.pc == 0x204) = true := by decide
/-- T-CT-18, 19. -/
theorem test_sneReg_taken : holds (exec (.sneReg 3 4) (st 3 1 4 2 0)) (fun t => t.pc == 0x204) = true := by decide
theorem test_sneReg_same : holds (exec (.sneReg 3 3) State.reset) (fun t => t.pc == 0x202) = true := by decide

/-! ### ALU -/

/-- T-ALU-1. -/
theorem test_ldImm : holds (exec (.ldImm 10 2) State.reset) (fun t => t.getV 10 == 2 && t.pc == 0x202) = true := by decide
/-- T-ALU-2, 3: no flag, and VF as a plain destination. -/
theorem test_addImm : holds (exec (.addImm 1 0xFF) (st 1 0x0A 0 0 0))
    (fun t => t.getV 1 == 9 && t.getV 15 == 0) = true := by decide
theorem test_addImm_vf : holds (exec (.addImm 15 0xFF) (st 15 1 0 0 0)) (fun t => t.getV 15 == 0) = true := by decide
/-- T-ALU-4. -/
theorem test_ldReg : holds (exec (.ldReg 1 2) (st 2 0x33 0 0 0)) (fun t => t.getV 1 == 0x33) = true := by decide
/-- T-ALU-5. -/
theorem test_orReg : holds (exec (.orReg 1 2) ((st 1 0x0F 2 0xF0 0).setV 15 1))
    (fun t => t.getV 1 == 0xFF && t.getV 15 == 1) = true := by decide
/-- T-ALU-6. -/
theorem test_andReg : holds (exec (.andReg 1 2) (st 1 0x3C 2 0x0F 0)) (fun t => t.getV 1 == 0x0C) = true := by decide
/-- T-ALU-7. -/
theorem test_xorReg : holds (exec (.xorReg 1 2) (st 1 0xFF 2 0x0F 0)) (fun t => t.getV 1 == 0xF0) = true := by decide
/-- T-ALU-10, 13. -/
theorem test_addReg_carry : holds (exec (.addReg 1 2) (st 1 0xFF 2 1 0))
    (fun t => t.getV 1 == 0 && t.getV 15 == 1) = true := by decide
theorem test_addReg_vf : holds (exec (.addReg 15 14) (st 15 0xF0 14 0x20 0))
    (fun t => t.getV 15 == 1 && t.getV 14 == 0x20) = true := by decide
/-- T-ALU-17, 19. -/
theorem test_sub_borrow : holds (exec (.sub 1 2) (st 1 5 2 7 0))
    (fun t => t.getV 1 == 0xFE && t.getV 15 == 0) = true := by decide
theorem test_sub_equal : holds (exec (.sub 1 2) State.reset)
    (fun t => t.getV 1 == 0 && t.getV 15 == 1) = true := by decide
/-- T-ALU-23, 24. -/
theorem test_subn : holds (exec (.subn 1 2) (st 1 5 2 7 0))
    (fun t => t.getV 1 == 2 && t.getV 15 == 1) = true := by decide
theorem test_subn_borrow : holds (exec (.subn 1 2) (st 1 7 2 5 0))
    (fun t => t.getV 1 == 0xFE && t.getV 15 == 0) = true := by decide
/-- T-ALU-30, 31: the two sides of `Q_SHIFT_VY`. -/
theorem test_shr_in_place : holds (shiftRight 1 (shiftSource false 1 2 (st 1 5 2 8 0)) (st 1 5 2 8 0))
    (fun t => t.getV 1 == 2 && t.getV 15 == 1 && t.getV 2 == 8) = true := by decide
theorem test_shr_from_vy : holds (shiftRight 1 (shiftSource true 1 2 (st 1 5 2 8 0)) (st 1 5 2 8 0))
    (fun t => t.getV 1 == 4 && t.getV 15 == 0 && t.getV 2 == 8) = true := by decide
/-- T-ALU-35, 36. -/
theorem test_shl_vf_in_place : holds (shiftLeft 15 (shiftSource false 15 0 (st 15 0x40 0 0 0)) (st 15 0x40 0 0 0))
    (fun t => t.getV 15 == 0) = true := by decide
theorem test_shl_from_vy : holds (shiftLeft 1 (shiftSource true 1 2 (st 1 0xFF 2 0x41 0)) (st 1 0xFF 2 0x41 0))
    (fun t => t.getV 1 == 0x82 && t.getV 15 == 0) = true := by decide
/-- T-ALU-38: the draw 0xA7 under the mask 0x0F. -/
theorem test_rnd : holds (randomAnd 1 0x0F 0xA7 State.reset) (fun t => t.getV 1 == 7 && t.draws == 1) = true := by decide

/-! ### Index and memory -/

/-- T-MEM-1. -/
theorem test_ldI : holds (exec (.ldI 0x300) State.reset) (fun t => t.I == 0x300) = true := by decide
/-- T-MEM-3, 4. -/
theorem test_addI : holds (exec (.addI 1) (st 1 1 0 0 0x0FFF)) (fun t => t.I == 0x1000 && t.getV 15 == 0) = true := by decide
theorem test_addI_wraps : holds (exec (.addI 1) (st 1 1 0 0 0xFFFF)) (fun t => t.I == 0) = true := by decide
/-- T-MEM-6. -/
theorem test_ldF : holds (exec (.ldF 1) (st 1 0x1A 0 0 0)) (fun t => t.I == 0x82) = true := by decide
/-- T-MEM-10, 11: the wrap and the font ROM. -/
theorem test_ldB_wraps : holds (exec (.ldB 1) (st 1 100 0 0 0x0FFF))
    (fun t => t.memRead 0xFFF == 1 && t.memRead 0 == 0 && t.memRead 1 == 0 && t.I == 0x0FFF) = true := by decide
theorem test_ldB_font : holds (exec (.ldB 1) (st 1 199 0 0 0x009E))
    (fun t => t.memRead 0x9E == 0x80 && t.memRead 0x9F == 0x80 && t.memRead 0xA0 == 9) = true := by decide
/-- T-MEM-15, 17. -/
theorem test_ldMemVx_wraps_and_moves : holds (dumpTo true 2 ((st 0 0xAA 1 0xBB 0x0FFF).setV 2 0xCC))
    (fun t => t.memRead 0xFFF == 0xAA && t.memRead 0 == 0xBB && t.memRead 1 == 0xCC && t.I == 0x1002) = true := by decide
theorem test_ldMemVx_font : holds (dumpTo false 3 (((st 0 1 1 2 0x004E).setV 2 3).setV 3 4))
    (fun t => t.memRead 0x4E == 1 && t.memRead 0x4F == 2 && t.memRead 0x50 == 0xF0 && t.memRead 0x51 == 0x90 &&
      t.I == 0x4E) = true := by decide
/-- T-MEM-19: the font read into all sixteen registers. -/
theorem test_ldVxMem_font : holds (loadFrom false 15 (st 0 0 1 0 0x0050))
    (fun t => t.V.toList == [0xF0, 0x90, 0x90, 0x90, 0xF0, 0x20, 0x60, 0x20, 0x20, 0x70, 0xF0, 0x10, 0xF0, 0x80, 0xF0,
      0xF0]) = true := by decide
/-- T-MEM-20, with the quirk. -/
theorem test_ldVxMem_own_bytes :
    holds (loadFrom true 1 ((st 2 0x77 0 0 0x0200).storeBytes 0x200 [0xF1, 0x65]))
      (fun t => t.getV 0 == 0xF1 && t.getV 1 == 0x65 && t.getV 2 == 0x77 && t.I == 0x202) = true := by decide

/-! ### Display -/

/-- T-DRW-4 and T-DRW-5: the origin wraps under both policies. -/
theorem test_drw_wraps : holds (drawSprite false 0 1 1 (st 0 0x7F 1 0x21 0x50))
    (fun t => litAre t.fb [(63, 1), (0, 1), (1, 1), (2, 1)] && t.getV 15 == 0) = true := by decide
theorem test_drw_clips : holds (drawSprite true 0 1 1 (st 0 0x7F 1 0x21 0x50))
    (fun t => litAre t.fb [(63, 1)] && t.getV 15 == 0) = true := by decide
/-- T-DRW-10: a collision on the wrapped part. -/
theorem test_drw_collision :
    holds (drawSprite false 0 1 1 { st 0 62 1 0 0x50 with fb := State.reset.fb.setPixel 0 0 true })
      (fun t => litAre t.fb [(62, 0), (63, 0), (1, 0)] && t.getV 15 == 1) = true := by decide
/-- T-DRW-12. -/
theorem test_cls : holds (exec .cls { st 15 1 0 0 0 with fb := State.reset.fb.setPixel 5 7 true })
    (fun t => litAre t.fb [] && t.getV 15 == 1) = true := by decide

/-! ### Keypad and timers -/

/-- T-KEY-3, and T-KEY-5. -/
theorem test_skp_low_nibble : holds (exec (.skp 3) ((st 3 0x15 0 0 0).setKey 5 true)) (fun t => t.pc == 0x204) = true := by
  decide
theorem test_sknp_pressed : holds (exec (.sknp 3) ((st 3 5 0 0 0).setKey 5 true)) (fun t => t.pc == 0x202) = true := by decide
/-- T-KEY-7, steps 1 and 4. -/
theorem test_ldVxK_blocks : holds (exec (.ldVxK 3) (State.reset.setKey 5 true))
    (fun t => t.run == .waiting && t.keyPrev[5] && t.pc == 0x200 && t.result == some .blocked) = true := by decide
theorem test_ldVxK_completes :
    holds (exec (.ldVxK 3) { (State.reset.setKey 9 true).setKey 5 true with run := .waiting })
      (fun t => t.run == .running && t.getV 3 == 5 && t.pc == 0x202) = true := by decide
/-- T-TMR-1, 2, 3. -/
theorem test_ldDTVx : holds (exec (.ldDTVx 3) (st 3 5 0 0 0)) (fun t => t.DT == 5 && t.ST == 0) = true := by decide
theorem test_ldSTVx : holds (exec (.ldSTVx 3) (st 3 5 0 0 0)) (fun t => t.soundTimer == 5 && t.soundActive) = true := by
  decide
theorem test_ldVxDT : holds (exec (.ldVxDT 4) { State.reset with DT := 3 }) (fun t => t.getV 4 == 3) = true := by decide
/-- T-TMR-5: a tick of a halted machine. -/
theorem test_tick_halted :
    holds (transition .tickTimers { State.reset with run := .halted .stackUnderflow, DT := 2, ST := 0 })
      (fun t => t.DT == 1 && t.ST == 0 && t.run == .halted .stackUnderflow) = true := by decide

/-! ### Steps, reset and the host's word -/

/-- S7: the image 00 E0, one step. -/
theorem test_reset_image_step : holds (runOps [.reset [0x00, 0xE0], .step] State.reset)
    (fun t => t.pc == 0x202 && t.result == some .continued) = true := by decide
/-- R240 step 2, from a halted machine whose every piece of state differs from R32's table. -/
def usedUp : State :=
  { ((st 3 5 15 1 0x321).storeBytes 0x300 [7]) with
    pc := 0x444, stack := State.reset.stack.set 0 0x222, sp := 2, DT := 3, ST := 4,
    fb := State.reset.fb.setPixel 5 7 true, key := State.reset.key.set 6 true, run := .halted .stackOverflow,
    keyPrev := State.reset.key.set 7 true, result := some (.fatal .stackOverflow), draws := 9 }
theorem test_reset_clears_a_halted_machine : usedUp.hostReset [0x12, 0x34] =
    (.ok, { State.reset with mem := [(0x200, 0x12), (0x201, 0x34)], draws := 9 }) := by decide
/-- T-DEC-1 (empty memory), and T-CT-3 (the fatal fetch). -/
theorem test_step_unknown : holds (step State.reset)
    (fun t => t.pc == 0x202 && t.result == some (.unknownOpcode 0)) = true := by decide
theorem test_step_out_of_bounds : holds (step { State.reset with pc := 0x0FFF })
    (fun t => t.pc == 0x0FFF && t.run == .halted .fetchOutOfBounds) = true := by decide
/-- An odd `pc` fetches (T-CT-21, step 2). -/
theorem test_step_odd_pc :
    holds (step ({ State.reset with pc := 0x203 }.storeBytes 0x203 [0x61, 0x2A]))
      (fun t => t.getV 1 == 0x2A && t.pc == 0x205) = true := by decide
/-- The word placed for the next step is the one it runs, from reset and from a `pc` in the font ROM. -/
theorem test_withFetchWord : holds (step (State.reset.withFetchWord 16 0x6A02)) (fun t => t.getV 10 == 2) = true := by decide
theorem test_withFetchWord_font :
    holds (step ({ State.reset with pc := 0x4F }.withFetchWord 16 0x6A02)) (fun t => t.getV 10 == 2) = true := by decide

/-! ### Memory's canonical form -/

/-- Writes rise, replace and, with the value an unlisted address reads as, remove. -/
theorem test_memory_canonical :
    ((((State.reset.memWrite 0x302 7).memWrite 0x300 1).memWrite 0x302 0).memWrite 0x050 9).mem = [(0x300, 1)] := by
  decide
theorem test_memory_ill_formed : Memory.wf [(0x300, 0)] = false ∧ Memory.wf [(0x301, 1), (0x300, 1)] = false ∧
    Memory.wf [(0x050, 1)] = false ∧ Memory.wf [(4096, 1)] = false := by decide

/-! ### Every statement with hypotheses has a case that meets them -/

/-- A machine that stands at `LD V3,K` with key 5 held. -/
def atKey : State := (State.reset.setKey 5 true).storeBytes 0x200 [0xF3, 0x0A]

/-- The same machine after the step that began the wait, its key released and pressed again. -/
def waiting : State := { atKey with run := .waiting }

theorem witness_DecodeInvertsEncode : (Instr.drw 15 15 15).wellFormed = true := by decide
theorem witness_EncodeInvertsDecode : decode 0x8FFE = .known (.shl 15 15) := by decide
theorem witness_DecodeFollowsTheOpcodeMap : (⟨0xF0FF, 0xF065⟩ : OpcodeRow) ∈ opcodeTable ∧
    OpcodeRow.selects ⟨0xF0FF, 0xF065⟩ 0xFF65 = true ∧ decode 0xFF65 = .known (.ldVxMem 15) := by decide
theorem witness_UnknownWordsAreExactly : decode 0xFFFF = .unknown 0xFFFF := by decide

/-- `pc` at its last fetchable value, 4094. -/
theorem witness_StepRunsTheDecodedInstruction :
    let s : State := { State.reset with pc := 4094 }.storeBytes 4094 [0x00, 0xE0]
    s.run = .running ∧ s.pc.toNat ≤ 4094 ∧
      decode (wordOfBytes (s.memRead s.pc.toNat) (s.memRead (s.pc.toNat + 1))) = .known .cls := by decide

theorem witness_StepFollowsTheStepAlgorithm_halted :
    { State.reset with run := .halted .stackOverflow }.run = .halted .stackOverflow := by decide
theorem witness_StepFollowsTheStepAlgorithm_bounds :
    let s : State := { State.reset with pc := 4095 }
    s.run = .running ∧ 4094 < s.pc.toNat := by decide
theorem witness_StepFollowsTheStepAlgorithm_unknown :
    let s : State := { State.reset with pc := 4094 }
    s.run = .running ∧ s.pc.toNat ≤ 4094 ∧
      decode (wordOfBytes (s.memRead s.pc.toNat) (s.memRead (s.pc.toNat + 1))) = .unknown 0 := by decide
theorem witness_StepFollowsTheStepAlgorithm_stack :
    { State.reset with sp := 16 }.sp.val = 16 ∧ { State.reset with sp := 15 }.sp.val ≠ 16 ∧
      State.reset.sp.val = 0 ∧ { State.reset with sp := 1 }.sp.val ≠ 0 := by decide
theorem witness_StepFollowsTheStepAlgorithm_other :
    (∀ nnn, Instr.cls ≠ .call nnn) ∧ Instr.cls ≠ .ret ∧ (∀ x, Instr.cls ≠ .ldVxK x) := by
  refine ⟨fun _ => ?_, by decide, fun _ => ?_⟩ <;> exact fun h => nomatch h

/-- Each of the four results is answered by some step. -/
theorem witness_EveryStepAnswersOneResult :
    holds (step atKey) (fun t => t.result == some .blocked) = true ∧
    holds (step State.reset) (fun t => t.result == some (.unknownOpcode 0)) = true ∧
    holds (step { State.reset with pc := 4095 }) (fun t => t.result == some (.fatal .fetchOutOfBounds)) = true ∧
    holds (step waiting) (fun t => t.result == some .continued) = true := by decide
theorem witness_FatalIsForGoodUntilReset :
    { State.reset with run := .halted .fetchOutOfBounds }.run = .halted .fetchOutOfBounds ∧
      ∀ image, HostOp.reset image ∉ [HostOp.step, HostOp.tickTimers, HostOp.setKey 5 true] := by
  exact ⟨rfl, fun image h => by simp at h⟩

theorem witness_CallPushesTheReturnAddress : { State.reset with sp := 15 }.sp.val < 16 := by decide
theorem witness_ReturnPopsTheMostRecentCall : 0 < { State.reset with sp := 16 }.sp.val ∧ State.reset.sp.val = 0 := by decide
theorem witness_CallThenReturnResumesTheCaller : State.reset.sp.val < 16 ∧
    holds (exec (.call 0x300) State.reset) (fun t => t.sp.val == 1) = true := by decide
theorem witness_ShiftsByOneAndTheBitShiftedOut :
    ∃ b : Byte, b = if Config.qShiftVy then State.reset.getV 2 else State.reset.getV 1 := ⟨_, rfl⟩
theorem witness_FontRomHoldsTheGlyphs : 0x050 ≤ 0x109F % 4096 ∧ 0x109F % 4096 ≤ 0x09F := by decide

/-- Digits at the end of memory, and around the font ROM. -/
theorem witness_DecimalStoreWritesThreeDigits :
    (st 1 199 0 0 0x0FFF).mem.wf = true ∧ isFont (0x0FFF % 4096) = false ∧ isFont ((0x0FFF + 1) % 4096) = false ∧
      isFont ((0x0FFF + 2) % 4096) = false ∧ isFont ((0x009E + 2) % 4096) = false := by decide
theorem witness_RegisterDumpStoresTheRange :
    (st 0 1 1 2 0x0FFF).mem.wf = true ∧ isFont (((st 0 1 1 2 0x0FFF).I.toNat + 15) % 4096) = false := by decide
theorem witness_DumpThenLoadRestoresTheRegisters :
    State.reset.mem.wf = true ∧ ∀ k, k ≤ (15 : RegIx).val → isFont (((st 0 1 1 2 0x300).I.toNat + k) % 4096) = false := by
  refine ⟨rfl, ?_⟩
  intro k hk
  have hk' : k ≤ 15 := hk
  interval_cases k <;> rfl

/-- A dump that writes the last two bytes of memory, which come next. -/
theorem witness_StoredBytesAreTheNextInstruction :
    let s : State := { State.reset with pc := 4092, I := 4094 }.storeBytes 4092 [0xF1, 0x55]
    s.mem.wf = true ∧ s.run = .running ∧ s.pc.toNat ≤ 4092 ∧ decode s.fetchWord = .known (.ldMemVx 1) ∧
      1 ≤ (1 : RegIx).val ∧ s.I.toNat % 4096 = s.pc.toNat + 2 ∧ isFont (s.pc.toNat + 2) = false ∧
      isFont (s.pc.toNat + 3) = false := by decide

theorem witness_DrawFlipsExactlyTheCoveredPixels : (15 : Nat) ≤ 15 ∧ (0 : Nat) ≤ 15 := by decide
/-- Glyph 0 at the origin covers pixel (0, 0) under either setting of `Q_CLIP`, and not pixel (4, 0). -/
theorem witness_DrawFlips_covered (clip : Bool) : SpriteCovers clip (st 0 0 1 0 0x50) 0 1 5 0 0 ∧
    ¬ SpriteCovers clip (st 0 0 1 0 0x50) 0 1 1 4 0 := by
  constructor
  · exact ⟨0, 0, by decide, by decide, by decide, by cases clip <;> decide⟩
  · rintro ⟨r, c, hr, hc, hb, h⟩
    have hr0 : r = 0 := by omega
    subst hr0
    have h0 : ((st 0 0 1 0 0x50).getV 0).toNat = 0 := by decide
    have hc4 : c = 4 := by
      cases clip
      · have h1 := h.1
        rw [h0] at h1
        change (0 % 64 + c) % 64 = 4 at h1
        omega
      · have h1 := h.1
        rw [h0] at h1
        change 0 % 64 + c = 4 at h1
        omega
    subst hc4
    exact absurd hb (by decide)
theorem witness_DrawingTwiceRestoresTheScreen : ∃ u : State, u.fb = (st 0 0 1 0 0x50).fb ∧ u.I = 0x50 ∧
    u.mem = (st 0 0 1 0 0x50).mem ∧ u.getV 0 = 0 ∧ u.getV 1 = 0 := ⟨st 0 0 1 0 0x50, rfl, rfl, rfl, rfl, rfl⟩
/-- A sprite at column 63 whose first row has bit 6 set, drawn to a next state; and `CLS` changing a lit screen. -/
theorem witness_DrawPropertiesTheSourceTests :
    ((st 0 63 1 31 0x50).getV 0).toNat % 64 = 63 ∧
      ((st 0 63 1 31 0x50).memRead ((st 0 63 1 31 0x50).I.toNat + 0)).getLsbD 6 = true ∧
      (31 : Fin 32).val = ((st 0 63 1 31 0x50).getV 1).toNat % 32 + 0 ∧
      holds (exec (.drw 0 1 1) (st 0 63 1 31 0x50)) (fun _ => true) = true ∧
      holds (exec .cls { State.reset with fb := State.reset.fb.setPixel 5 7 true })
        (fun t => t.fb != State.reset.fb.setPixel 5 7 true) = true := by decide

theorem witness_KeySkipsReadTheLevel : (15 : KeyIx).val = ((st 3 0xFF 0 0 0).getV 3).toNat % 16 := by decide
theorem witness_WaitForKey_running : atKey.run = .running := by decide
theorem witness_WaitForKey_blocked :
    { waiting with keyPrev := waiting.key }.run = .waiting ∧
      ∀ k, ¬ FreshKey { waiting with keyPrev := waiting.key } k := by unfold FreshKey; decide
theorem witness_WaitForKey_fresh : waiting.run = .waiting ∧ FreshKey waiting 5 ∧ ∀ j, j < 5 → ¬ FreshKey waiting j := by
  unfold FreshKey; decide
theorem witness_WaitForKey_halted :
    { State.reset with run := .halted .stackOverflow }.run = .halted .stackOverflow := by decide

theorem waiting_inv : { waiting with keyPrev := waiting.key }.Inv where
  mem_wf := by decide
  pc_le := by decide
  stack_le := fun _ h => absurd h (Nat.not_lt_zero _)
  waits := fun _ => ⟨by decide, 3, by decide⟩

theorem witness_PressBetweenTwoStepsIsNotSeen :
    { waiting with keyPrev := waiting.key }.Inv ∧ { waiting with keyPrev := waiting.key }.run = .waiting ∧
      { waiting with keyPrev := waiting.key }.key[(4 : KeyIx)] = false ∧
      ∀ j, ¬ FreshKey { waiting with keyPrev := waiting.key } j :=
  ⟨waiting_inv, by decide, by decide, by unfold FreshKey; decide⟩
theorem witness_TimersAndKeysBelongToTheHost :
    holds (step ((st 3 5 0 0 0).storeBytes 0x200 [0xF3, 0x15])) (fun t => t.DT != 0) = true ∧
      holds (step ((st 3 5 0 0 0).storeBytes 0x200 [0xF3, 0x18])) (fun t => t.ST != 0) = true ∧
      holds (transition (.setKey 5 true) State.reset) (fun t => t.key != State.reset.key) = true ∧
      State.reset.key[(5 : KeyIx)] = false := by decide
/-- The longest image and one byte more, and boundary addresses of the font and of the rest of RAM. -/
theorem witness_ResetLoadsTheImage : (List.replicate 3584 (1 : Byte)).length ≤ 3584 ∧
    3584 < (List.replicate 3585 (1 : Byte)).length ∧ (0x050 ≤ 0x09F ∧ 0x09F ≤ 0x09F) ∧
    (0x0A0 < 4096 ∧ isFont 0x0A0 = false ∧ 0x0A0 < 0x200) := by
  rw [List.length_replicate, List.length_replicate]; decide
theorem witness_InvariantHoldsAtReset : imageFits [0x00, 0xE0, 0x12] = true := by decide
theorem witness_InvariantKept : { waiting with keyPrev := waiting.key }.Inv ∧
    holds (step { waiting with keyPrev := waiting.key }) (fun _ => true) = true := ⟨waiting_inv, by decide⟩
theorem witness_InvariantKeptOverEveryInterleaving : ∃ s : State, s.Inv := ⟨_, waiting_inv⟩
theorem witness_ASpinningProgramStays : (State.reset.storeBytes 0x200 [0x12, 0x00]).Spinning :=
  ⟨by decide, by decide, 0x200, by decide, by decide⟩
/-- A fatal result in a state that is not halted, of `CALL` and of `RET`. -/
theorem witness_EveryInstructionAnswersANextState :
    (∀ h, { State.reset with sp := 16 }.run ≠ .halted h) ∧
      holds (exec (.call 0x300) { State.reset with sp := 16 })
        (fun t => t.result == some (.fatal .stackOverflow)) = true ∧
      holds (exec .ret State.reset) (fun t => t.result == some (.fatal .stackUnderflow)) = true :=
  ⟨fun _ h => (nomatch h), by decide, by decide⟩
theorem witness_RegistersChangeOnlyByName : holds (exec (.addReg 1 2) State.reset) (fun _ => true) = true ∧
    WritesFlag (.addReg 1 2) ∧ ¬ MayWriteReg (.addReg 1 2) 3 := by
  refine ⟨by decide, trivial, ?_⟩
  unfold MayWriteReg
  decide
theorem witness_EachPieceOfStateHasItsWriters :
    holds (exec (.ldB 1) (st 1 199 0 0 0x300)) (fun t => t.mem != []) = true ∧
      holds (exec (.call 0x300) State.reset) (fun t => t.sp != 0 && t.stack != State.reset.stack) = true ∧
      holds (exec (.rnd 1 0) State.reset) (fun t => t.draws != 0) = true ∧
      holds (exec (.ldVxK 3) atKey) (fun t => t.run != .running && t.keyPrev != atKey.keyPrev) = true := by decide
/-- Each way of moving `pc`: none, a skip, a jump, a jump by V0, a return, a plain instruction. -/
theorem witness_PcMovesByTheKindOfInstruction :
    holds (exec (.ldVxK 3) atKey) (fun t => t.result != some .continued) = true ∧
      holds (exec (.seImm 1 0) State.reset) (fun t => t.result == some .continued && t.pc == 0x204) = true ∧
      holds (exec (.jp 0x345) State.reset) (fun t => t.result == some .continued && t.pc == 0x345) = true ∧
      holds (exec (.jpV0 0x300) (st 0 4 1 0 0)) (fun t => t.result == some .continued && t.pc == 0x304) = true ∧
      holds (exec .ret { State.reset with sp := 1 }) (fun t => t.result == some .continued && t.pc == 0) = true ∧
      holds (exec .cls State.reset) (fun t => t.result == some .continued && t.pc == 0x202) = true := by decide
theorem witness_UnreadStateNeverMatters : SameButUnread State.reset
    { State.reset with stack := State.reset.stack.set 3 0x777, keyPrev := State.reset.key.set 3 true } :=
  ⟨rfl, fun _ h => absurd h (Nat.not_lt_zero _), fun h => nomatch h⟩

end Sys2Proof.Tests
end

section
/-! PROOF. Reset with an image (spec/20_memory.md R62, spec/70_reset_and_hazards.md R240, R241): what memory reads when
its listed cells are those of an image, and from that the obligation on reset. -/

namespace Sys2Proof.Machine

/-! ### Reading outside the font ROM -/

theorem background_of_not_font {c : Nat} (h : isFont c = false) : background c = 0 := by
  simp [background, h]

/-- Outside the font ROM an address reads what is listed for it, and zero when nothing is. -/
theorem Memory.read_not_font (m : Memory) {c : Nat} (h : isFont c = false) : m.read c = (m.listed c).getD 0 := by
  simp [Memory.read, h, background_of_not_font h]

/-! ### The cells of an image -/

theorem imageCells_zero (a : Nat) (bs : List Byte) : imageCells a (0 :: bs) = imageCells (a + 1) bs := if_pos rfl

theorem imageCells_nonzero (a : Nat) {b : Byte} (bs : List Byte) (hb : b ≠ 0) :
    imageCells a (b :: bs) = (a, b) :: imageCells (a + 1) bs := if_neg hb

section
variable {a : Nat} {image : List Byte} (ha : 0x09F < a) (hlen : a + image.length ≤ Config.memSize)
include ha hlen

theorem listed_imageCells_below {c : Nat} (h : c < a) : (imageCells a image).listed c = none :=
  Memory.listed_below (imageCells_wf ha hlen) h

/-- A zero byte of the image has no cell, so what is listed is compared through its default. -/
theorem getD_listed_imageCells (k : Nat) : ((imageCells a image).listed (a + k)).getD 0 = image.getD k 0 := by
  induction image generalizing a k with
  | nil => rfl
  | cons b bs ih =>
    have hrest : a + 1 + bs.length ≤ Config.memSize := by simp only [List.length_cons] at hlen; omega
    cases k with
    | zero =>
      have hnone := listed_imageCells_below (by omega) hrest (Nat.lt_succ_self a)
      by_cases hb : b = 0
      · rw [hb, imageCells_zero, Nat.add_zero a, hnone]; rfl
      · rw [imageCells_nonzero a bs hb, Nat.add_zero a, Memory.listed, if_pos rfl]; rfl
    | succ k =>
      have hk := ih (by omega) hrest k
      rw [Nat.add_assoc, Nat.add_comm 1 k] at hk
      by_cases hb : b = 0
      · rw [hb, imageCells_zero, hk]; rfl
      · rw [imageCells_nonzero a bs hb, Memory.listed, if_neg (by omega), hk]; rfl

theorem read_imageCells_inside {k : Nat} (h : k < image.length) : (imageCells a image).read (a + k) = image[k] := by
  rw [Memory.read_not_font _ (isFont_false_of_gt (by omega)), getD_listed_imageCells ha hlen,
    List.getD_eq_getElem _ _ h]

theorem read_imageCells_outside {c : Nat} (hf : isFont c = false) (h : c < a ∨ a + image.length ≤ c) :
    (imageCells a image).read c = 0 := by
  rw [Memory.read_not_font _ hf]
  rcases h with hbelow | habove
  · rw [listed_imageCells_below ha hlen hbelow, Option.getD_none]
  · obtain ⟨k, rfl⟩ := Nat.exists_eq_add_of_le (Nat.le_of_add_right_le habove)
    rw [getD_listed_imageCells ha hlen, List.getD_eq_default _ _ (by omega)]

end

/-! ### Reset -/

theorem State.memRead_of_lt (s : State) {c : Nat} (h : c < 4096) : s.memRead c = s.mem.read c := by
  rw [State.memRead, Config.memSize, Nat.mod_eq_of_lt h]

theorem State.memRead_fontBytes (s : State) {c : Nat} (hlo : 0x050 ≤ c) (hhi : c ≤ 0x09F) :
    s.memRead c = fontBytes.getD (c - 0x050) 0 := by
  have hf : isFont c = true := isFont_iff.mpr ⟨hlo, hhi⟩
  rw [State.memRead_of_lt s (by omega), Memory.read_font _ hf, background, if_pos hf, fontBase]

theorem imageFits_iff {image : List Byte} : imageFits image = true ↔ image.length ≤ 3584 := decide_eq_true_iff

/-- Settles O41. An image that fits ends within memory, so the lemmas on its cells apply at `PROG_BASE`; the rest of
the state is read off the equation of reset. -/
theorem resetLoadsTheImage : Obligations.ResetLoadsTheImage := by
  unfold Obligations.ResetLoadsTheImage
  refine fun s image => ⟨fun hfit => ?_, fun hlong => hostReset_of_too_large s ?_⟩
  · have hend : Config.progBase + image.length ≤ Config.memSize := by
      simp only [Config.progBase, Config.memSize]; omega
    refine ⟨_, hostReset_of_fits s (imageFits_iff.mpr hfit), fun k hk => ?inside,
      fun c hlo hhi => State.memRead_fontBytes _ hlo hhi, fun c hc hf hout => ?outside, rfl, rfl, rfl⟩
    case inside =>
      rw [State.memRead_of_lt _ (by omega)]
      exact read_imageCells_inside (by decide) hend hk
    case outside =>
      rw [State.memRead_of_lt _ hc]
      exact read_imageCells_outside (by decide) hend hf hout
  · exact Bool.eq_false_iff.mpr fun hfit => Nat.not_le_of_lt hlong (imageFits_iff.mp hfit)

end Sys2Proof.Machine
end

section
/-! PROOF. The compare-and-skip instructions (spec/40_control_transfer.md R105 to R109): each is the shared end of a
skip under its own condition, and that end moves `pc` alone. -/

namespace Sys2Proof.Machine

/-! ### Each compare skip as the end of a skip -/

theorem exec_seImm (s : State) (x : RegIx) (nn : Byte) :
    exec (.seImm x nn) s = skipIf (s.getV x == nn) s := rfl

theorem exec_sneImm (s : State) (x : RegIx) (nn : Byte) :
    exec (.sneImm x nn) s = skipIf (s.getV x != nn) s := rfl

theorem exec_seReg (s : State) (x y : RegIx) :
    exec (.seReg x y) s = skipIf (s.getV x == s.getV y) s := rfl

theorem exec_sneReg (s : State) (x y : RegIx) :
    exec (.sneReg x y) s = skipIf (s.getV x != s.getV y) s := rfl

/-! ### The end of a skip -/

/-- R109 for a test `c` that decides the condition `p`: the successor depends on nothing but `p`, so the skipped word is
never looked at. -/
theorem skipIf_advances {c : Bool} {p : Prop} [Decidable p] (hc : c = true ↔ p) (s : State) :
    ∃ t, skipIf c s = .next t ∧ t.result = some .continued ∧ t.pc = s.pc + (if p then 4 else 2) ∧ OnlyPc s t := by
  refine ⟨_, skipIf_eq_next.mpr rfl, rfl, ?pc, rfl⟩
  case pc => simp only [hc]

/-- Settles O12. Each instruction is a skip whose Boolean test decides the condition of the statement. -/
theorem compareSkipsAdvanceByFourOrTwo : Obligations.CompareSkipsAdvanceByFourOrTwo := by
  unfold Obligations.CompareSkipsAdvanceByFourOrTwo
  intro s x y nn
  rw [exec_seImm, exec_sneImm, exec_seReg, exec_sneReg]
  exact ⟨skipIf_advances beq_iff_eq s, skipIf_advances bne_iff_ne s, skipIf_advances beq_iff_eq s,
    skipIf_advances bne_iff_ne s⟩

end Sys2Proof.Machine
end

section
/-! PROOF. The ALU instructions that leave a flag (spec/41_alu.md R126, R127, R133): each is the shared write of a
result and then a flag, followed by the ordinary end, under its own result and its own flag condition. -/

namespace Sys2Proof.Machine

/-! ### The instructions as a write of result and flag -/

theorem exec_addReg (s : State) (x y : RegIx) : exec (.addReg x y) s =
    proceed (writeWithFlag x (sumByte (s.getV x) (s.getV y)) (carryOut (s.getV x) (s.getV y)) s) := rfl

theorem exec_sub (s : State) (x y : RegIx) : exec (.sub x y) s =
    proceed (writeWithFlag x (diffByte (s.getV x) (s.getV y)) (noBorrow (s.getV x) (s.getV y)) s) := rfl

/-! ### The arithmetic -/

theorem carryOut_iff {a b : Byte} : carryOut a b = true ↔ a.toNat + b.toNat > 255 := decide_eq_true_iff

theorem noBorrow_iff {a b : Byte} : noBorrow a b = true ↔ a.toNat ≥ b.toNat := decide_eq_true_iff

/-- The two branches of R132's subtraction are one difference over the integers, reduced modulo 256. -/
theorem toNat_diffByte_int (a b : Byte) : ((diffByte a b).toNat : Int) = (a.toNat - b.toNat : Int) % 256 := by
  have ha : a.toNat < 256 := a.isLt
  have hb : b.toNat < 256 := b.isLt
  rw [toNat_diffByte]
  split <;> omega

/-! ### The write of result and flag -/

theorem getV_writeWithFlag_vf (s : State) (x : RegIx) (b : Byte) (c : Bool) :
    (writeWithFlag x b c s).getV vf = flagByte c := by
  rw [getV_writeWithFlag, if_pos rfl]

theorem getV_writeWithFlag_dest (s : State) {x : RegIx} (b : Byte) (c : Bool) (hx : x ≠ vf) :
    (writeWithFlag x b c s).getV x = b := by
  rw [getV_writeWithFlag, if_neg hx, if_pos rfl]

theorem getV_writeWithFlag_other (s : State) {x k : RegIx} (b : Byte) (c : Bool) (hx : k ≠ x) (hvf : k ≠ vf) :
    (writeWithFlag x b c s).getV k = s.getV k := by
  rw [getV_writeWithFlag, if_neg hvf, if_neg hx]

/-- R133 for a flag `c` that decides the condition `p`: the flag goes to VF last, so VF holds it whatever the
destination, and the result is left in any destination but VF. -/
theorem writeWithFlag_completes {c : Bool} {p : Prop} [Decidable p] (hc : c = true ↔ p) (s : State) (x : RegIx)
    (b : Byte) :
    ∃ t, proceed (writeWithFlag x b c s) = .next t ∧ EndsNormally s t ∧ (x ≠ 15 → t.getV x = b) ∧
      (t.getV 15).toNat = (if p then 1 else 0) ∧ RegsKept s t (fun k => k = x ∨ k = 15) ∧ OnlyRegsPc s t := by
  refine ⟨_, proceed_eq_next.mpr rfl, ⟨rfl, rfl⟩, getV_writeWithFlag_dest s b c, ?flag, fun k hk => ?kept, rfl⟩
  case flag =>
    calc ((writeWithFlag x b c s).getV vf).toNat
        = if c then 1 else 0 := by rw [getV_writeWithFlag_vf, toNat_flagByte]
      _ = if p then 1 else 0 := by simp only [hc]
  case kept =>
    obtain ⟨hx, hvf⟩ := not_or.mp hk
    exact getV_writeWithFlag_other s b c hx hvf

/-! ### The obligations -/

/-- Settles O18. The result is the sum and the flag decides that it exceeds 255. -/
theorem addRegisterSumAndCarry : Obligations.AddRegisterSumAndCarry := by
  unfold Obligations.AddRegisterSumAndCarry
  intro s x y
  obtain ⟨t, hnext, hend, hresult, hflag, hkept, hframe⟩ :=
    writeWithFlag_completes carryOut_iff s x (sumByte (s.getV x) (s.getV y))
  exact ⟨t, (exec_addReg s x y).trans hnext, hend, fun hx => by rw [hresult hx, toNat_sumByte], hflag, hkept, hframe⟩

/-- Settles O19. The result is the difference and the flag decides that no borrow arises. -/
theorem subtractDifferenceAndNoBorrow : Obligations.SubtractDifferenceAndNoBorrow := by
  unfold Obligations.SubtractDifferenceAndNoBorrow
  intro s x y
  obtain ⟨t, hnext, hend, hresult, hflag, hkept, hframe⟩ :=
    writeWithFlag_completes noBorrow_iff s x (diffByte (s.getV x) (s.getV y))
  exact ⟨t, (exec_sub s x y).trans hnext, hend, fun hx => by rw [hresult hx, toNat_diffByte_int], hflag, hkept, hframe⟩

end Sys2Proof.Machine
end

section
/-! PROOF. Clearing the screen (spec/43_display.md R170): `CLS` puts the clear framebuffer in the state and ends in the
ordinary way, so it touches neither VF nor anything else. -/

namespace Sys2Proof.Machine

theorem exec_cls (s : State) : exec .cls s = proceed { s with fb := Framebuffer.clear } := rfl

/-- Settles O30. The one next state holds the clear framebuffer, every pixel of which is off. -/
theorem clearScreenTurnsEveryPixelOff : Obligations.ClearScreenTurnsEveryPixelOff := by
  unfold Obligations.ClearScreenTurnsEveryPixelOff
  intro s
  refine ⟨_, (exec_cls s).trans (proceed_eq_next.mpr rfl), ⟨rfl, rfl⟩, fun px py => ?pixel, rfl⟩
  case pixel => exact Framebuffer.pixel_clear px py

end Sys2Proof.Machine
end

section
/-! PROOF. The decoder, the encoder and the opcode map (spec/30_encoding.md R80 to R87): what the fields of an encoded
word are, what a word is in terms of its fields, and what each mask of the map selects; from these the decoder and the
encoder are inverse to each other, and the decoder is the opcode map. -/

namespace Sys2Proof

/-! ### The fields of an encoded word -/

section
variable {c : Nat} (hc : c < 16)
include hc

theorem fieldClass_encodeNNN (nnn : Addr12) : fieldClass (encodeNNN c nnn) = c := by
  rw [fieldClass, toNat_encodeNNN hc]
  omega

theorem fieldNNN_encodeNNN (nnn : Addr12) : fieldNNN (encodeNNN c nnn) = nnn := by
  apply BitVec.eq_of_toNat_eq
  rw [toNat_fieldNNN, toNat_encodeNNN hc]
  omega

theorem fieldClass_encodeXNN (x : RegIx) (nn : Byte) : fieldClass (encodeXNN c x nn) = c := by
  rw [fieldClass, toNat_encodeXNN hc]
  omega

theorem fieldX_encodeXNN (x : RegIx) (nn : Byte) : fieldX (encodeXNN c x nn) = x := by
  rw [fieldX, Fin.ext_iff, val_nibble, toNat_encodeXNN hc]
  omega

theorem fieldNN_encodeXNN (x : RegIx) (nn : Byte) : fieldNN (encodeXNN c x nn) = nn := by
  apply BitVec.eq_of_toNat_eq
  rw [toNat_fieldNN, toNat_encodeXNN hc]
  omega

theorem fieldClass_encodeXYN (x y : RegIx) (n : Nat) : fieldClass (encodeXYN c x y n) = c := by
  rw [fieldClass, toNat_encodeXYN hc]
  omega

theorem fieldX_encodeXYN (x y : RegIx) (n : Nat) : fieldX (encodeXYN c x y n) = x := by
  rw [fieldX, Fin.ext_iff, val_nibble, toNat_encodeXYN hc]
  omega

theorem fieldY_encodeXYN (x y : RegIx) (n : Nat) : fieldY (encodeXYN c x y n) = y := by
  rw [fieldY, Fin.ext_iff, val_nibble, toNat_encodeXYN hc]
  omega

theorem fieldN_encodeXYN (x y : RegIx) (n : Nat) : fieldN (encodeXYN c x y n) = n % 16 := by
  rw [fieldN, toNat_encodeXYN hc]
  omega

end

/-! ### A word from its fields -/

section
variable {w : Word} {c : Nat} (hc : fieldClass w = c)
include hc

theorem encodeNNN_fields : encodeNNN c (fieldNNN w) = w := by
  have hlt : c < 16 := hc ▸ fieldClass_lt w
  apply BitVec.eq_of_toNat_eq
  rw [toNat_encodeNNN hlt, toNat_fieldNNN, ← hc, fieldClass]
  omega

theorem encodeXNN_fields : encodeXNN c (fieldX w) (fieldNN w) = w := by
  have hlt : c < 16 := hc ▸ fieldClass_lt w
  apply BitVec.eq_of_toNat_eq
  rw [toNat_encodeXNN hlt, toNat_fieldNN, fieldX, val_nibble, ← hc, fieldClass]
  omega

theorem encodeXYN_fields : encodeXYN c (fieldX w) (fieldY w) (fieldN w) = w := by
  have hlt : c < 16 := hc ▸ fieldClass_lt w
  apply BitVec.eq_of_toNat_eq
  rw [toNat_encodeXYN hlt, fieldX, fieldY, fieldN, val_nibble, val_nibble, ← hc, fieldClass]
  omega

theorem encodeXNN_subop {nn : Byte} (hnn : (fieldNN w).toNat = nn.toNat) : encodeXNN c (fieldX w) nn = w := by
  rw [← BitVec.eq_of_toNat_eq hnn, encodeXNN_fields hc]

theorem encodeXYN_subop {n : Nat} (hn : fieldN w = n) : encodeXYN c (fieldX w) (fieldY w) n = w := by
  rw [← hn, encodeXYN_fields hc]

end

/-! ### Decoding what was encoded -/

theorem decode_encode {i : Instr} (hi : i.wellFormed = true) : decode (encode i) = .known i := by
  cases i with
  | cls | ret => rfl
  | jp _ | call _ | ldI _ | jpV0 _ => simp [encode, decode, fieldClass_encodeNNN, fieldNNN_encodeNNN]
  | seImm _ _ | sneImm _ _ | ldImm _ _ | addImm _ _ | rnd _ _ =>
    simp [encode, decode, fieldClass_encodeXNN, fieldX_encodeXNN, fieldNN_encodeXNN]
  | seReg _ _ | sneReg _ _ =>
    simp [encode, decode, fieldClass_encodeXYN, fieldX_encodeXYN, fieldY_encodeXYN, fieldN_encodeXYN]
  | ldReg _ _ | orReg _ _ | andReg _ _ | xorReg _ _ | addReg _ _ | sub _ _ | shr _ _ | subn _ _ | shl _ _ =>
    simp [encode, decode, decodeAlu, fieldClass_encodeXYN, fieldX_encodeXYN, fieldY_encodeXYN, fieldN_encodeXYN]
  | drw _ _ n =>
    have hn : n ≤ 15 := of_decide_eq_true hi
    simp [encode, decode, fieldClass_encodeXYN, fieldX_encodeXYN, fieldY_encodeXYN, fieldN_encodeXYN]
    omega
  | skp _ | sknp _ =>
    simp [encode, decode, decodeKey, fieldClass_encodeXNN, fieldX_encodeXNN, fieldNN_encodeXNN]
  | ldVxDT _ | ldVxK _ | ldDTVx _ | ldSTVx _ | addI _ | ldF _ | ldB _ | ldMemVx _ | ldVxMem _ =>
    simp [encode, decode, decodeMisc, fieldClass_encodeXNN, fieldX_encodeXNN, fieldNN_encodeXNN]

/-- Settles O1. The bytes of an instruction join to its word, which decodes to it. -/
theorem decodeInvertsEncode : Obligations.DecodeInvertsEncode := by
  unfold Obligations.DecodeInvertsEncode
  refine fun i hi => ⟨decode_encode hi, fun rest => ?bytes⟩
  case bytes => simp [encodeBytes, decodeBytes, wordOfBytes_hiByte_loByte, decode_encode hi]

/-! ### Encoding what was decoded -/

section
variable {w : Word} {i : Instr}

theorem encode_decodeAlu (hc : fieldClass w = 0x8) (h : decodeAlu w = .known i) :
    i.wellFormed = true ∧ encode i = w := by
  unfold decodeAlu at h
  split at h <;> cases h <;> exact ⟨rfl, encodeXYN_subop hc ‹_›⟩

theorem encode_decodeKey (hc : fieldClass w = 0xE) (h : decodeKey w = .known i) :
    i.wellFormed = true ∧ encode i = w := by
  unfold decodeKey at h
  split at h <;> cases h <;> exact ⟨rfl, encodeXNN_subop hc ‹_›⟩

theorem encode_decodeMisc (hc : fieldClass w = 0xF) (h : decodeMisc w = .known i) :
    i.wellFormed = true ∧ encode i = w := by
  unfold decodeMisc at h
  split at h <;> cases h <;> exact ⟨rfl, encodeXNN_subop hc ‹_›⟩

/-- Every bit of a word that decodes is its class, its sub-operation or a field of the instruction (R85, R87). -/
theorem encode_decode (h : decode w = .known i) : i.wellFormed = true ∧ encode i = w := by
  unfold decode at h
  split at h <;> rename_i hc
  case h_1 =>
    split at h
    · next hw => cases h; exact ⟨rfl, hw.symm⟩
    · split at h
      · next hw => cases h; exact ⟨rfl, hw.symm⟩
      · cases h
  case h_2 | h_3 | h_11 | h_12 => cases h; exact ⟨rfl, encodeNNN_fields hc⟩
  case h_4 | h_5 | h_7 | h_8 | h_13 => cases h; exact ⟨rfl, encodeXNN_fields hc⟩
  case h_6 | h_10 =>
    split at h <;> cases h
    exact ⟨rfl, encodeXYN_subop hc ‹_›⟩
  case h_9 => exact encode_decodeAlu hc h
  case h_14 =>
    cases h
    exact ⟨decide_eq_true (Nat.le_of_lt_succ (Nat.mod_lt _ (by decide))), encodeXYN_fields hc⟩
  case h_15 => exact encode_decodeKey hc h
  case h_16 => exact encode_decodeMisc hc h
  case h_17 => cases h

end

/-- Settles O2: every bit of a word that decodes is fixed or a field. -/
theorem encodeInvertsDecode : Obligations.EncodeInvertsDecode := by
  unfold Obligations.EncodeInvertsDecode
  exact fun _ _ h => encode_decode h

/-! ### What a row of the opcode map selects -/

/-- The row whose mask keeps the class and the low `k` bits (R84: no sub-operation, a nibble or a byte). -/
def subopRow (k c n : Nat) : OpcodeRow := ⟨BitVec.ofNat 16 (0xF000 + (2 ^ k - 1)), BitVec.ofNat 16 (c * 0x1000 + n)⟩

theorem subopMask_parts : ∀ k ∈ [0, 4, 8], (BitVec.ofNat 16 (0xF000 + (2 ^ k - 1))).toNat / 2 ^ 12 = 2 ^ 4 - 1 ∧
    (BitVec.ofNat 16 (0xF000 + (2 ^ k - 1))).toNat % 2 ^ 12 = 2 ^ k - 1 ∧ 2 ^ k ∣ 2 ^ 12 := by decide

theorem toNat_and_subopMask (w : Word) {k : Nat} (hk : k ∈ [0, 4, 8]) :
    (w &&& BitVec.ofNat 16 (0xF000 + (2 ^ k - 1))).toNat = fieldClass w * 2 ^ 12 + w.toNat % 2 ^ k := by
  obtain ⟨hhigh, hlow, hdvd⟩ := subopMask_parts k hk
  have hclass : fieldClass w % 2 ^ 4 = fieldClass w := Nat.mod_eq_of_lt (fieldClass_lt w)
  rw [BitVec.toNat_and, ← Nat.div_add_mod' (_ &&& _) (2 ^ 12), Nat.and_div_two_pow, Nat.and_mod_two_pow, hhigh, hlow,
    Nat.and_two_pow_sub_one_eq_mod, Nat.and_two_pow_sub_one_eq_mod, Nat.mod_mod_of_dvd _ hdvd]
  exact congrArg (· * 2 ^ 12 + _) hclass

/-- Such a row selects exactly the words of its class and sub-operation (R84). -/
theorem selects_subopRow {w : Word} {k c n : Nat} (hk : k ∈ [0, 4, 8]) (hc : c < 16) (hn : n < 2 ^ k)
    (h : (subopRow k c n).selects w = true) : fieldClass w = c ∧ w.toNat % 2 ^ k = n := by
  obtain ⟨-, -, hdvd⟩ := subopMask_parts k hk
  have hlow : 2 ^ k ≤ 2 ^ 12 := Nat.le_of_dvd (by decide) hdvd
  have hmod : w.toNat % 2 ^ k < 2 ^ k := Nat.mod_lt _ (Nat.two_pow_pos k)
  have heq := congrArg BitVec.toNat (of_decide_eq_true h)
  simp only [subopRow, toNat_and_subopMask w hk, BitVec.toNat_ofNat] at heq
  omega

/-- The classes whose words all decode (R84). -/
def plainClasses : List Nat := [0x1, 0x2, 0x3, 0x4, 0x6, 0x7, 0xA, 0xB, 0xC, 0xD]

/-- The sub-operations of class 8 (R84). -/
def aluOps : List Nat := [0x0, 0x1, 0x2, 0x3, 0x4, 0x5, 0x6, 0x7, 0xE]
/-- The sub-operations of class E (R84). -/
def keyOps : List Nat := [0x9E, 0xA1]
/-- The sub-operations of class F (R84). -/
def miscOps : List Nat := [0x07, 0x0A, 0x15, 0x18, 0x1E, 0x29, 0x33, 0x55, 0x65]

section
variable {w : Word}

theorem decode_of_plainClass {c : Nat} (hc : c ∈ plainClasses) (h : fieldClass w = c) :
    ∃ i, decode w = .known i ∧ i.row = subopRow 0 c 0 := by
  unfold decode
  rw [h]
  fin_cases hc <;> exact ⟨_, rfl, rfl⟩

theorem decode_of_seReg (hc : fieldClass w = 0x5) (h : fieldN w = 0) :
    ∃ i, decode w = .known i ∧ i.row = subopRow 4 0x5 0 :=
  ⟨.seReg (fieldX w) (fieldY w), by simp [decode, hc, h], rfl⟩

theorem decode_of_sneReg (hc : fieldClass w = 0x9) (h : fieldN w = 0) :
    ∃ i, decode w = .known i ∧ i.row = subopRow 4 0x9 0 :=
  ⟨.sneReg (fieldX w) (fieldY w), by simp [decode, hc, h], rfl⟩

theorem decode_of_aluOp {n : Nat} (hn : n ∈ aluOps) (hc : fieldClass w = 0x8) (h : fieldN w = n) :
    ∃ i, decode w = .known i ∧ i.row = subopRow 4 0x8 n := by
  unfold decode decodeAlu
  rw [hc, h]
  fin_cases hn <;> exact ⟨_, rfl, rfl⟩

theorem decode_of_keyOp {n : Nat} (hn : n ∈ keyOps) (hc : fieldClass w = 0xE) (h : (fieldNN w).toNat = n) :
    ∃ i, decode w = .known i ∧ i.row = subopRow 8 0xE n := by
  unfold decode decodeKey
  rw [hc, h]
  fin_cases hn <;> exact ⟨_, rfl, rfl⟩

theorem decode_of_miscOp {n : Nat} (hn : n ∈ miscOps) (hc : fieldClass w = 0xF) (h : (fieldNN w).toNat = n) :
    ∃ i, decode w = .known i ∧ i.row = subopRow 8 0xF n := by
  unfold decode decodeMisc
  rw [hc, h]
  fin_cases hn <;> exact ⟨_, rfl, rfl⟩

end

/-- The map is the two rows that fix a whole word and the rows of the listed sub-operations (R84). -/
theorem mem_opcodeTable : ∀ r ∈ opcodeTable, r = Instr.cls.row ∨ r = Instr.ret.row ∨
    (∃ c ∈ plainClasses, c < 16 ∧ r = subopRow 0 c 0) ∨ r = subopRow 4 0x5 0 ∨ r = subopRow 4 0x9 0 ∨
    (∃ n ∈ aluOps, n < 2 ^ 4 ∧ r = subopRow 4 0x8 n) ∨ (∃ n ∈ keyOps, n < 2 ^ 8 ∧ r = subopRow 8 0xE n) ∨
    ∃ n ∈ miscOps, n < 2 ^ 8 ∧ r = subopRow 8 0xF n := by decide

/-- A row that fixes every bit selects one word (R84). -/
theorem selects_fullMask {w p : Word} (h : OpcodeRow.selects ⟨0xFFFF, p⟩ w = true) : w = p := by
  have hall : w &&& 0xFFFF#16 = w := BitVec.and_allOnes
  exact hall.symm.trans (of_decide_eq_true h)

/-- A word that a row of the map selects decodes to an instruction of that row. -/
theorem decode_of_selects {r : OpcodeRow} {w : Word} (hr : r ∈ opcodeTable) (h : r.selects w = true) :
    ∃ i, decode w = .known i ∧ i.row = r := by
  obtain rfl | rfl | ⟨c, hc, hlt, rfl⟩ | rfl | rfl | ⟨n, hn, hlt, rfl⟩ | ⟨n, hn, hlt, rfl⟩ | ⟨n, hn, hlt, rfl⟩ :=
    mem_opcodeTable r hr
  · rw [selects_fullMask h]; exact ⟨.cls, rfl, rfl⟩
  · rw [selects_fullMask h]; exact ⟨.ret, rfl, rfl⟩
  · exact decode_of_plainClass hc (selects_subopRow (by decide) hlt (by decide) h).1
  · obtain ⟨hc, hn⟩ := selects_subopRow (by decide) (by decide) (by decide) h
    exact decode_of_seReg hc hn
  · obtain ⟨hc, hn⟩ := selects_subopRow (by decide) (by decide) (by decide) h
    exact decode_of_sneReg hc hn
  · obtain ⟨hc, h⟩ := selects_subopRow (by decide) (by decide) hlt h
    exact decode_of_aluOp hn hc h
  · obtain ⟨hc, h⟩ := selects_subopRow (by decide) (by decide) hlt h
    exact decode_of_keyOp hn hc ((toNat_fieldNN w).trans h)
  · obtain ⟨hc, h⟩ := selects_subopRow (by decide) (by decide) hlt h
    exact decode_of_miscOp hn hc ((toNat_fieldNN w).trans h)

theorem row_mem_opcodeTable (i : Instr) : i.row ∈ opcodeTable := by
  cases i <;> simp [Instr.row, opcodeTable]

/-- The word of every instruction is one its row selects: the family `SelectedByRow`, constructor by constructor. -/
theorem row_selects_encode : ∀ i : Instr, i.row.selects (encode i) = true
  | .cls => Laws.SelectedByRow.cls
  | .ret => Laws.SelectedByRow.ret
  | .jp a => Laws.SelectedByRow.jp a
  | .call a => Laws.SelectedByRow.call a
  | .seImm x b => Laws.SelectedByRow.seImm x b
  | .sneImm x b => Laws.SelectedByRow.sneImm x b
  | .seReg x y => Laws.SelectedByRow.seReg x y
  | .ldImm x b => Laws.SelectedByRow.ldImm x b
  | .addImm x b => Laws.SelectedByRow.addImm x b
  | .ldReg x y => Laws.SelectedByRow.ldReg x y
  | .orReg x y => Laws.SelectedByRow.orReg x y
  | .andReg x y => Laws.SelectedByRow.andReg x y
  | .xorReg x y => Laws.SelectedByRow.xorReg x y
  | .addReg x y => Laws.SelectedByRow.addReg x y
  | .sub x y => Laws.SelectedByRow.sub x y
  | .shr x y => Laws.SelectedByRow.shr x y
  | .subn x y => Laws.SelectedByRow.subn x y
  | .shl x y => Laws.SelectedByRow.shl x y
  | .sneReg x y => Laws.SelectedByRow.sneReg x y
  | .ldI a => Laws.SelectedByRow.ldI a
  | .jpV0 a => Laws.SelectedByRow.jpV0 a
  | .rnd x b => Laws.SelectedByRow.rnd x b
  | .drw x y n => Laws.SelectedByRow.drw x y n
  | .skp x => Laws.SelectedByRow.skp x
  | .sknp x => Laws.SelectedByRow.sknp x
  | .ldVxDT x => Laws.SelectedByRow.ldVxDT x
  | .ldVxK x => Laws.SelectedByRow.ldVxK x
  | .ldDTVx x => Laws.SelectedByRow.ldDTVx x
  | .ldSTVx x => Laws.SelectedByRow.ldSTVx x
  | .addI x => Laws.SelectedByRow.addI x
  | .ldF x => Laws.SelectedByRow.ldF x
  | .ldB x => Laws.SelectedByRow.ldB x
  | .ldMemVx x => Laws.SelectedByRow.ldMemVx x
  | .ldVxMem x => Laws.SelectedByRow.ldVxMem x

/-- Settles O3. A decoded word is the word of its instruction, which that instruction's row selects. -/
theorem decodeFollowsTheOpcodeMap : Obligations.DecodeFollowsTheOpcodeMap := by
  unfold Obligations.DecodeFollowsTheOpcodeMap
  refine ⟨rfl, by decide, fun w => ⟨fun i hi => ⟨row_mem_opcodeTable i, ?selects⟩, fun r => decode_of_selects⟩⟩
  case selects =>
    obtain ⟨-, hw⟩ := encode_decode hi
    rw [← hw]
    exact row_selects_encode i

/-! ### The unknown words -/

section
variable {w : Word}

theorem decodeAlu_unknown_iff : decodeAlu w = .unknown w ↔ w.toNat % 16 ∈ [8, 9, 10, 11, 12, 13, 15] := by
  have hlt : w.toNat % 16 < 16 := Nat.mod_lt _ (by decide)
  unfold decodeAlu fieldN
  generalize w.toNat % 16 = n at hlt ⊢
  interval_cases n <;> simp

theorem decodeKey_unknown_iff : decodeKey w = .unknown w ↔ w.toNat % 256 ∉ [0x9E, 0xA1] := by
  rw [← toNat_fieldNN]
  unfold decodeKey
  split <;> simp_all

theorem decodeMisc_unknown_iff : decodeMisc w = .unknown w ↔
    w.toNat % 256 ∉ [0x07, 0x0A, 0x15, 0x18, 0x1E, 0x29, 0x33, 0x55, 0x65] := by
  rw [← toNat_fieldNN]
  unfold decodeMisc
  split <;> simp_all

/-- A word reported as unknown is the word that was decoded (R85). -/
theorem unknown_of_decode {u : Word} (h : decode w = .unknown u) : u = w := by
  unfold decode decodeAlu decodeKey decodeMisc at h
  repeat' split at h
  all_goals cases h
  all_goals rfl

/-- R86's table, by class. -/
theorem decode_unknown_iff : decode w = .unknown w ↔
    (fieldClass w = 0 ∧ w ≠ 0x00E0 ∧ w ≠ 0x00EE) ∨
    (fieldClass w = 5 ∧ w.toNat % 16 ≠ 0) ∨
    (fieldClass w = 8 ∧ w.toNat % 16 ∈ [8, 9, 10, 11, 12, 13, 15]) ∨
    (fieldClass w = 9 ∧ w.toNat % 16 ≠ 0) ∨
    (fieldClass w = 14 ∧ w.toNat % 256 ∉ [0x9E, 0xA1]) ∨
    (fieldClass w = 15 ∧ w.toNat % 256 ∉ [0x07, 0x0A, 0x15, 0x18, 0x1E, 0x29, 0x33, 0x55, 0x65]) := by
  have hlt := fieldClass_lt w
  generalize hc : fieldClass w = c at hlt ⊢
  unfold decode
  rw [hc]
  interval_cases c <;> simp [decodeAlu_unknown_iff, decodeKey_unknown_iff, decodeMisc_unknown_iff, fieldN]
  all_goals split_ifs <;> simp_all

end

/-! ### The number of the unknown words -/

section
variable (p : Nat → Bool)

theorem countP_range_add (a b : Nat) :
    (List.range (a + b)).countP p = (List.range a).countP p + (List.range b).countP (fun k => p (a + k)) := by
  rw [List.range_add, List.countP_append, List.countP_map]
  rfl

/-- A count over equal blocks is the sum of the counts over the blocks. -/
theorem countP_range_mul (n b : Nat) : (List.range (n * b)).countP p =
    ((List.range n).map (fun c => (List.range b).countP (fun k => p (c * b + k)))).sum := by
  induction n with
  | zero => simp
  | succ n ih => simp [Nat.succ_mul, countP_range_add, ih, List.range_succ]

/-- A count of a predicate that depends on the low part alone repeats the count of one period. -/
theorem countP_range_mod (n b : Nat) :
    (List.range (n * b)).countP (fun k => p (k % b)) = n * (List.range b).countP p := by
  have hblock : ∀ c, (List.range b).countP (fun k => p ((c * b + k) % b)) = (List.range b).countP p := fun c =>
    List.countP_congr fun k hk => by
      rw [Nat.mul_add_mod_self_right, Nat.mod_eq_of_lt (List.mem_range.mp hk)]
  rw [countP_range_mul, List.map_congr_left fun c _ => hblock c, List.map_const', List.sum_replicate_nat,
    List.length_range]

end

/-- Is the word of class `c` and low bits `k` unknown (R86)? -/
def unknownIn : Nat → Nat → Bool
  | 0, k => k != 0x0E0 && k != 0x0EE
  | 5, k => k % 16 != 0
  | 8, k => decide (k % 16 ∈ [8, 9, 10, 11, 12, 13, 15])
  | 9, k => k % 16 != 0
  | 14, k => decide (k % 256 ∉ [0x9E, 0xA1])
  | 15, k => decide (k % 256 ∉ [0x07, 0x0A, 0x15, 0x18, 0x1E, 0x29, 0x33, 0x55, 0x65])
  | _, _ => false

theorem decode_unknown_ofNat {c k : Nat} (hc : c < 16) (hk : k < 4096) :
    decide (decode (BitVec.ofNat 16 (c * 4096 + k)) = .unknown (BitVec.ofNat 16 (c * 4096 + k))) = unknownIn c k := by
  have hw : (BitVec.ofNat 16 (c * 4096 + k)).toNat = c * 4096 + k := by rw [BitVec.toNat_ofNat]; omega
  have hclass : fieldClass (BitVec.ofNat 16 (c * 4096 + k)) = c := by rw [fieldClass, hw]; omega
  have h16 : (c * 4096 + k) % 16 = k % 16 := by omega
  have h256 : (c * 4096 + k) % 256 = k % 256 := by omega
  have heq : ∀ m : Nat, m < 4096 → (BitVec.ofNat 16 (c * 4096 + k) = BitVec.ofNat 16 m ↔ c = 0 ∧ k = m) := by
    intro m hm
    rw [← BitVec.toNat_inj, hw, BitVec.toNat_ofNat]
    omega
  rw [Bool.eq_iff_iff, decide_eq_true_iff, decode_unknown_iff, hclass, hw, h16, h256]
  have hE0 := heq 0xE0 (by decide)
  have hEE := heq 0xEE (by decide)
  interval_cases c <;> simp_all [unknownIn]

/-- How many words of each class are unknown (R86): all but two, all but 256, seven nibbles of sixteen, and all but two
and all but nine bytes. -/
def unknownCounts : List Nat := [4094, 0, 0, 0, 0, 3840, 0, 0, 1792, 3840, 0, 0, 0, 0, 4064, 3952]

theorem countP_unknownIn_zero : (List.range 4096).countP (unknownIn 0) = 4094 := by
  have hhigh : ∀ k ∈ List.range 3840, unknownIn 0 (256 + k) = true := fun k _ => by
    have hE0 : 256 + k ≠ 0x0E0 := by omega
    have hEE : 256 + k ≠ 0x0EE := by omega
    simp [unknownIn, hE0, hEE]
  rw [countP_range_add _ 256 3840, List.countP_eq_length.mpr hhigh, List.length_range, countP_range_mul _ 16 16]
  decide

theorem countP_unknownIn {c : Nat} (hc : c < 16) :
    (List.range 4096).countP (unknownIn c) = unknownCounts.getD c 0 := by
  have h16 := fun p => countP_range_mod p 256 16
  have h256 := fun p => (countP_range_mod p 16 256).trans (congrArg (16 * ·) (countP_range_mul p 16 16))
  match c, hc with
  | 0, _ => exact countP_unknownIn_zero
  | 5, _ | 9, _ => exact (h16 (· != 0)).trans (by decide)
  | 8, _ => exact (h16 fun k => decide (k ∈ [8, 9, 10, 11, 12, 13, 15])).trans (by decide)
  | 14, _ => exact (h256 fun k => decide (k ∉ [0x9E, 0xA1])).trans (by decide)
  | 15, _ =>
    exact (h256 fun k => decide (k ∉ [0x07, 0x0A, 0x15, 0x18, 0x1E, 0x29, 0x33, 0x55, 0x65])).trans (by decide)
  | 1, _ | 2, _ | 3, _ | 4, _ | 6, _ | 7, _ | 10, _ | 11, _ | 12, _ | 13, _ =>
    exact List.countP_eq_zero.mpr fun _ _ => Bool.false_ne_true
  | n + 16, hn => exact absurd hn (by omega)

/-- Settles O4. The words are counted class by class, in sixteen blocks of 4096. -/
theorem unknownWordsAreExactly : Obligations.UnknownWordsAreExactly := by
  unfold Obligations.UnknownWordsAreExactly
  refine ⟨fun _ _ => unknown_of_decode, fun _ => decode_unknown_iff, ?count⟩
  case count =>
    have hblock : ∀ c ∈ List.range 16, (List.range 4096).countP (fun k =>
        decide (decode (BitVec.ofNat 16 (c * 4096 + k)) = .unknown (BitVec.ofNat 16 (c * 4096 + k)))) =
        unknownCounts.getD c 0 := fun c hc => by
      rw [← countP_unknownIn (List.mem_range.mp hc)]
      refine List.countP_congr fun k hk => ?_
      rw [decode_unknown_ofNat (List.mem_range.mp hc) (List.mem_range.mp hk)]
    rw [countP_range_mul _ 16 4096, List.map_congr_left hblock]
    rfl

/-- Settles O5, by evaluating the decoder on the eight words. -/
theorem decodesTheWrittenWords : Obligations.DecodesTheWrittenWords := by
  unfold Obligations.DecodesTheWrittenWords
  decide

end Sys2Proof
end

section
/-! PROOF. What one instruction can do, said once for all 34 (spec/60_exceptions.md R200 to R202). An instruction is of
one of six kinds by the way it ends; one that ends in the ordinary way is a change of state, `work`, before that end.
The claims about every instruction follow kind by kind. -/

namespace Sys2Proof.Machine

/-! ### The kinds of instruction -/

/-- The way an instruction ends. -/
inductive Kind where
  /-- past its word, whatever it did (R9) -/
  | plain
  /-- past one word or two (R109) -/
  | skip
  /-- at a target it computes (R101, R104) -/
  | jump
  /-- `CALL` (R102) -/
  | call
  /-- `RET` (R103) -/
  | ret
  /-- `LD Vx,K` (R182) -/
  | waitKey

/-- The kind of each instruction. -/
def kindOf : Instr → Kind
  | .seImm _ _ | .sneImm _ _ | .seReg _ _ | .sneReg _ _ | .skp _ | .sknp _ => .skip
  | .jp _ | .jpV0 _ => .jump
  | .call _ => .call
  | .ret => .ret
  | .ldVxK _ => .waitKey
  | _ => .plain

/-- What a plain instruction does before its ordinary end. -/
def work : Instr → State → State
  | .cls, s => { s with fb := Framebuffer.clear }
  | .ldImm x nn, s => s.setV x nn
  | .addImm x nn, s => s.setV x (sumByte (s.getV x) nn)
  | .ldReg x y, s => s.setV x (s.getV y)
  | .orReg x y, s => s.setV x (s.getV x ||| s.getV y)
  | .andReg x y, s => s.setV x (s.getV x &&& s.getV y)
  | .xorReg x y, s => s.setV x (s.getV x ^^^ s.getV y)
  | .addReg x y, s => writeWithFlag x (sumByte (s.getV x) (s.getV y)) (carryOut (s.getV x) (s.getV y)) s
  | .sub x y, s => writeWithFlag x (diffByte (s.getV x) (s.getV y)) (noBorrow (s.getV x) (s.getV y)) s
  | .subn x y, s => writeWithFlag x (diffByte (s.getV y) (s.getV x)) (noBorrow (s.getV y) (s.getV x)) s
  | .shr x y, s =>
    writeWithFlag x (halfByte (shiftSource Config.qShiftVy x y s)) (lowBit (shiftSource Config.qShiftVy x y s)) s
  | .shl x y, s =>
    writeWithFlag x (doubleByte (shiftSource Config.qShiftVy x y s)) (highBit (shiftSource Config.qShiftVy x y s)) s
  | .rnd x nn, s => { s.setV x (Config.randomByte s.draws &&& nn) with draws := s.draws + 1 }
  | .ldI nnn, s => { s with I := zext16 nnn }
  | .addI x, s => { s with I := s.I + zextByte (s.getV x) }
  | .ldF x, s => { s with I := glyphAddr (s.getV x) }
  | .ldB x, s => s.storeBytes s.I.toNat (decimalDigits (s.getV x))
  | .ldMemVx x, s => { s.dumpRegs s.I.toNat (regsUpTo x) with I := indexAfter Config.qMemIncI x s.I }
  | .ldVxMem x, s => { s.loadRegs s.I.toNat (regsUpTo x) with I := indexAfter Config.qMemIncI x s.I }
  | .drw x y n, s =>
    State.setV { s with fb := (s.drawing Config.qClip x y n).fb } vf
      (flagByte (s.drawing Config.qClip x y n).collision)
  | .ldVxDT x, s => s.setV x s.DT
  | .ldDTVx x, s => { s with DT := s.getV x }
  | .ldSTVx x, s => { s with ST := s.getV x }
  | _, s => s

/-- The condition of a skip (R105 to R108, R180, R181). -/
def skipTest : Instr → State → Bool
  | .seImm x nn, s => s.getV x == nn
  | .sneImm x nn, s => s.getV x != nn
  | .seReg x y, s => s.getV x == s.getV y
  | .sneReg x y, s => s.getV x != s.getV y
  | .skp x, s => s.key[lowNibble (s.getV x)]
  | .sknp x, s => !s.key[lowNibble (s.getV x)]
  | _, _ => false

/-- The target of a jump (R101, R104). -/
def jumpTarget : Instr → State → Word
  | .jp nnn, _ => zext16 nnn
  | .jpV0 nnn, s => zext16 nnn + zextByte (s.getV 0)
  | _, s => s.pc

section
variable {i : Instr}

theorem exec_plain (hk : kindOf i = .plain) (s : State) : exec i s = proceed (work i s) := by
  cases i <;> cases hk <;> rfl

theorem exec_skip (hk : kindOf i = .skip) (s : State) : exec i s = skipIf (skipTest i s) s := by
  cases i <;> cases hk <;> rfl

theorem exec_jump (hk : kindOf i = .jump) (s : State) : exec i s = goTo (jumpTarget i s) s := by
  cases i <;> cases hk <;> rfl

theorem eq_call_of_kind (hk : kindOf i = .call) : ∃ nnn, i = .call nnn := by
  cases i <;> cases hk
  exact ⟨_, rfl⟩

theorem eq_ret_of_kind (hk : kindOf i = .ret) : i = .ret := by
  cases i <;> cases hk
  rfl

theorem eq_ldVxK_of_kind (hk : kindOf i = .waitKey) : ∃ x, i = .ldVxK x := by
  cases i <;> cases hk
  exact ⟨_, rfl⟩

end

/-! ### What the work of a plain instruction leaves -/

theorem State.dumpRegs_frame (base : Nat) (ks : List RegIx) (s : State) :
    s.dumpRegs base ks = { s with mem := (s.dumpRegs base ks).mem } := by
  induction ks generalizing s with
  | nil => rfl
  | cons k ks ih =>
    unfold State.dumpRegs
    rw [ih]
    rfl

section
variable (s : State) (a : Nat) (bs : List Byte) (ks : List RegIx)

@[simp] theorem State.storeBytes_I : (s.storeBytes a bs).I = s.I := by rw [State.storeBytes_frame]
@[simp] theorem State.storeBytes_DT : (s.storeBytes a bs).DT = s.DT := by rw [State.storeBytes_frame]
@[simp] theorem State.storeBytes_ST : (s.storeBytes a bs).ST = s.ST := by rw [State.storeBytes_frame]
@[simp] theorem State.storeBytes_fb : (s.storeBytes a bs).fb = s.fb := by rw [State.storeBytes_frame]
@[simp] theorem State.storeBytes_draws : (s.storeBytes a bs).draws = s.draws := by rw [State.storeBytes_frame]

@[simp] theorem State.dumpRegs_DT : (s.dumpRegs a ks).DT = s.DT := by rw [State.dumpRegs_frame]
@[simp] theorem State.dumpRegs_ST : (s.dumpRegs a ks).ST = s.ST := by rw [State.dumpRegs_frame]
@[simp] theorem State.dumpRegs_fb : (s.dumpRegs a ks).fb = s.fb := by rw [State.dumpRegs_frame]
@[simp] theorem State.dumpRegs_draws : (s.dumpRegs a ks).draws = s.draws := by rw [State.dumpRegs_frame]

@[simp] theorem State.loadRegs_mem : (s.loadRegs a ks).mem = s.mem := by rw [State.loadRegs_frame]
@[simp] theorem State.loadRegs_DT : (s.loadRegs a ks).DT = s.DT := by rw [State.loadRegs_frame]
@[simp] theorem State.loadRegs_ST : (s.loadRegs a ks).ST = s.ST := by rw [State.loadRegs_frame]
@[simp] theorem State.loadRegs_fb : (s.loadRegs a ks).fb = s.fb := by rw [State.loadRegs_frame]
@[simp] theorem State.loadRegs_draws : (s.loadRegs a ks).draws = s.draws := by rw [State.loadRegs_frame]

end

theorem work_frame (i : Instr) (s : State) : work i s = { s with
    mem := (work i s).mem, V := (work i s).V, I := (work i s).I, DT := (work i s).DT, ST := (work i s).ST,
    fb := (work i s).fb, draws := (work i s).draws } := by
  cases i with
  | ldB x => rw [work, State.storeBytes_frame]
  | ldMemVx x => rw [work, State.dumpRegs_frame]
  | ldVxMem x => rw [work, State.loadRegs_frame]
  | _ => rfl

section
variable (i : Instr) (s : State)

@[simp] theorem work_pc : (work i s).pc = s.pc := by rw [work_frame]
@[simp] theorem work_stack : (work i s).stack = s.stack := by rw [work_frame]
@[simp] theorem work_sp : (work i s).sp = s.sp := by rw [work_frame]
@[simp] theorem work_key : (work i s).key = s.key := by rw [work_frame]
@[simp] theorem work_run : (work i s).run = s.run := by rw [work_frame]
@[simp] theorem work_keyPrev : (work i s).keyPrev = s.keyPrev := by rw [work_frame]

end

/-! ### What one instruction can do -/

/-- A plain instruction answers its work with `pc` moved past its word. -/
theorem exec_plain_next {i : Instr} (hk : kindOf i = .plain) (s : State) :
    exec i s = .next { work i s with pc := s.pc + 2, result := some .continued } := by
  rw [exec_plain hk, proceed_eq_next, work_pc]

/-- If an instruction answers a next state, it is the state its kind says; `CALL`, `RET` and `LD Vx,K` have
inversions of their own, `execCall_depth_cases`, `execRet_depth_cases` and `execLdVxK_cases`. -/
theorem exec_cases {i : Instr} {s t : State} (h : exec i s = .next t) :
    (kindOf i = .plain ∧ t = { work i s with pc := s.pc + 2, result := some .continued }) ∨
    (kindOf i = .skip ∧
      t = { s with pc := s.pc + (if skipTest i s then 4 else 2), result := some .continued }) ∨
    (kindOf i = .jump ∧ t = { s with pc := jumpTarget i s, result := some .continued }) ∨
    (∃ nnn, i = .call nnn ∧ execCall nnn s = .next t) ∨
    (i = .ret ∧ execRet s = .next t) ∨ ∃ x, i = .ldVxK x ∧ execLdVxK x s = .next t := by
  cases hk : kindOf i with
  | plain =>
    rw [exec_plain_next hk] at h
    exact .inl ⟨rfl, (Host.Outcome.next.inj h).symm⟩
  | skip => exact .inr (.inl ⟨rfl, skipIf_eq_next.mp (exec_skip hk s ▸ h)⟩)
  | jump => exact .inr (.inr (.inl ⟨rfl, goTo_eq_next.mp (exec_jump hk s ▸ h)⟩))
  | call =>
    obtain ⟨nnn, rfl⟩ := eq_call_of_kind hk
    exact .inr (.inr (.inr (.inl ⟨nnn, rfl, h⟩)))
  | ret =>
    obtain rfl := eq_ret_of_kind hk
    exact .inr (.inr (.inr (.inr (.inl ⟨rfl, h⟩))))
  | waitKey =>
    obtain ⟨x, rfl⟩ := eq_ldVxK_of_kind hk
    exact .inr (.inr (.inr (.inr (.inr ⟨x, rfl, h⟩))))

section
variable {s t : State} {nnn : Addr12} {x : RegIx}

/-- `CALL` in terms of the depth (R102, R24). -/
theorem execCall_eq_of_lt (h : s.sp.val < 16) : execCall nnn s = .next { s with
    stack := s.stack.set s.sp.val (s.pc + 2) h, sp := ⟨s.sp.val + 1, Nat.succ_lt_succ h⟩, pc := zext16 nnn,
    result := some .continued } := by
  rw [execCall, State.push_of_lt _ h]
  rfl

theorem execCall_eq_of_full (h : s.sp.val = 16) : execCall nnn s =
    .next { s with run := .halted .stackOverflow, result := some (.fatal .stackOverflow) } := by
  rw [execCall, State.push_full _ (by omega)]
  rfl

theorem execCall_depth_cases (h : execCall nnn s = .next t) :
    (∃ hs : s.sp.val < 16, t = { s with
      stack := s.stack.set s.sp.val (s.pc + 2) hs, sp := ⟨s.sp.val + 1, Nat.succ_lt_succ hs⟩, pc := zext16 nnn,
      result := some .continued }) ∨
    (s.sp.val = 16 ∧ t = { s with run := .halted .stackOverflow, result := some (.fatal .stackOverflow) }) := by
  by_cases hs : s.sp.val < 16
  · rw [execCall_eq_of_lt hs] at h
    exact .inl ⟨hs, (Host.Outcome.next.inj h).symm⟩
  · have hfull : s.sp.val = 16 := by omega
    rw [execCall_eq_of_full hfull] at h
    exact .inr ⟨hfull, (Host.Outcome.next.inj h).symm⟩

/-- `RET` in terms of the depth (R103, R24). -/
theorem execRet_eq_of_pos (h : 0 < s.sp.val) : execRet s = .next { s with
    sp := ⟨s.sp.val - 1, by omega⟩, pc := s.stack[s.sp.val - 1]'(by omega), result := some .continued } := by
  obtain ⟨_, _, hpop⟩ := State.pop_of_pos h
  rw [execRet, hpop]
  rfl

theorem execRet_eq_of_empty (h : s.sp.val = 0) : execRet s =
    .next { s with run := .halted .stackUnderflow, result := some (.fatal .stackUnderflow) } := by
  rw [execRet, State.pop_empty h]
  rfl

theorem execRet_depth_cases (h : execRet s = .next t) :
    (0 < s.sp.val ∧ t = { s with
      sp := ⟨s.sp.val - 1, by omega⟩, pc := s.stack[s.sp.val - 1]'(by omega), result := some .continued }) ∨
    (s.sp.val = 0 ∧ t = { s with run := .halted .stackUnderflow, result := some (.fatal .stackUnderflow) }) := by
  rcases Nat.eq_zero_or_pos s.sp.val with hs | hs
  · rw [execRet_eq_of_empty hs] at h
    exact .inr ⟨hs, (Host.Outcome.next.inj h).symm⟩
  · rw [execRet_eq_of_pos hs] at h
    exact .inl ⟨hs, (Host.Outcome.next.inj h).symm⟩

theorem execLdVxK_eq_of_running (h : s.run = .running) : execLdVxK x s =
    .next { s with run := .waiting, keyPrev := s.key, result := some .blocked } := by
  rw [execLdVxK, h]
  rfl

theorem execLdVxK_eq_of_none (h : s.run = .waiting) (hf : lowestFresh s.key s.keyPrev = none) : execLdVxK x s =
    .next { s with run := .waiting, keyPrev := s.key, result := some .blocked } := by
  simp only [execLdVxK, h, hf]
  rfl

theorem execLdVxK_eq_of_some {k : KeyIx} (h : s.run = .waiting) (hf : lowestFresh s.key s.keyPrev = some k) :
    execLdVxK x s = .next
      { s.setV x (BitVec.ofNat 8 k.val) with run := .running, pc := s.pc + 2, result := some .continued } := by
  simp only [execLdVxK, h, hf]
  rfl

theorem execLdVxK_eq_of_halted {r : FatalReason} (h : s.run = .halted r) :
    execLdVxK x s = .next { s with result := some (.fatal r) } := by
  unfold execLdVxK
  split <;> simp_all [stayHalted]

end

section
variable (s : State)

theorem execCall_answers (nnn : Addr12) : ∃ t, execCall nnn s = .next t := by
  by_cases h : s.sp.val < 16
  · exact ⟨_, execCall_eq_of_lt h⟩
  · exact ⟨_, execCall_eq_of_full (by omega)⟩

theorem execRet_answers : ∃ t, execRet s = .next t := by
  rcases Nat.eq_zero_or_pos s.sp.val with h | h
  · exact ⟨_, execRet_eq_of_empty h⟩
  · exact ⟨_, execRet_eq_of_pos h⟩

theorem execLdVxK_answers (x : RegIx) : ∃ t, execLdVxK x s = .next t := by
  cases hr : s.run with
  | running => exact ⟨_, execLdVxK_eq_of_running hr⟩
  | waiting =>
    cases hf : lowestFresh s.key s.keyPrev with
    | none => exact ⟨_, execLdVxK_eq_of_none hr hf⟩
    | some k => exact ⟨_, execLdVxK_eq_of_some hr hf⟩
  | halted r => exact ⟨_, execLdVxK_eq_of_halted hr⟩

/-- No instruction stops the model. -/
theorem exec_answers (i : Instr) : ∃ t, exec i s = .next t := by
  cases hk : kindOf i with
  | plain => exact ⟨_, exec_plain hk s⟩
  | skip => exact ⟨_, exec_skip hk s⟩
  | jump => exact ⟨_, exec_jump hk s⟩
  | call =>
    obtain ⟨nnn, rfl⟩ := eq_call_of_kind hk
    exact execCall_answers s nnn
  | ret =>
    obtain rfl := eq_ret_of_kind hk
    exact execRet_answers s
  | waitKey =>
    obtain ⟨x, rfl⟩ := eq_ldVxK_of_kind hk
    exact execLdVxK_answers s x

end

end Sys2Proof.Machine
end

section
/-! PROOF. The results an instruction and a step can answer (spec/60_exceptions.md R200 to R204), and the step algorithm
line by line (R201). -/

namespace Sys2Proof.Machine

/-! ### Results -/

/-- The results of an instruction that is not one of the three with another end (R200). -/
theorem exec_continues {i : Instr} (hcall : ∀ nnn, i ≠ .call nnn) (hret : i ≠ .ret) (hkey : ∀ x, i ≠ .ldVxK x)
    {s t : State} (h : exec i s = .next t) : t.result = some .continued := by
  rcases exec_cases h with ⟨-, rfl⟩ | ⟨-, rfl⟩ | ⟨-, rfl⟩ | ⟨nnn, rfl, -⟩ | ⟨rfl, -⟩ | ⟨x, rfl, -⟩
  · rfl
  · rfl
  · rfl
  · exact absurd rfl (hcall nnn)
  · exact absurd rfl hret
  · exact absurd rfl (hkey x)

/-- Every result of an instruction, with what it says of the instruction and of the state (R200, R202, R203). -/
theorem exec_result {i : Instr} {s t : State} (h : exec i s = .next t) :
    t.result = some .continued ∨
    (t = { s with run := .waiting, keyPrev := s.key, result := some .blocked } ∧ ∃ x, i = .ldVxK x) ∨
    (t = { s with run := .halted .stackOverflow, result := some (.fatal .stackOverflow) } ∧
      s.sp.val = 16 ∧ ∃ nnn, i = .call nnn) ∨
    (t = { s with run := .halted .stackUnderflow, result := some (.fatal .stackUnderflow) } ∧
      s.sp.val = 0 ∧ i = .ret) ∨
    (∃ r, s.run = .halted r ∧ t = { s with result := some (.fatal r) }) := by
  rcases exec_cases h with ⟨-, rfl⟩ | ⟨-, rfl⟩ | ⟨-, rfl⟩ | ⟨nnn, rfl, h⟩ | ⟨rfl, h⟩ | ⟨x, rfl, h⟩
  case inl | inr.inl | inr.inr.inl => exact .inl rfl
  · rcases execCall_depth_cases h with ⟨-, rfl⟩ | ⟨hs, rfl⟩
    · exact .inl rfl
    · exact .inr (.inr (.inl ⟨rfl, hs, nnn, rfl⟩))
  · rcases execRet_depth_cases h with ⟨-, rfl⟩ | ⟨hs, rfl⟩
    · exact .inl rfl
    · exact .inr (.inr (.inr (.inl ⟨rfl, hs, rfl⟩)))
  · rcases execLdVxK_cases h with ⟨-, rfl⟩ | ⟨-, k, -, rfl⟩ | ⟨r, hr, rfl⟩
    · exact .inr (.inl ⟨rfl, x, rfl⟩)
    · exact .inl rfl
    · exact .inr (.inr (.inr (.inr ⟨r, hr, rfl⟩)))

/-- Settles O10. `exec_result` says which results there are and what each says of the instruction. -/
theorem everyInstructionAnswersANextState : Obligations.EveryInstructionAnswersANextState := by
  unfold Obligations.EveryInstructionAnswersANextState
  intro i s
  obtain ⟨t, h⟩ := exec_answers s i
  rcases exec_result h with hr | ⟨rfl, -⟩ | ⟨rfl, hs, hi⟩ | ⟨rfl, hs, hi⟩ | ⟨r, hrun, rfl⟩
  · exact ⟨t, _, h, hr, nofun, fun _ _ => nofun⟩
  · exact ⟨_, _, h, rfl, nofun, fun _ _ => nofun⟩
  · exact ⟨_, _, h, rfl, nofun, fun _ why hw => .inl ⟨(StepResult.fatal.inj hw).symm, hs, hi⟩⟩
  · exact ⟨_, _, h, rfl, nofun, fun _ why hw => .inr ⟨(StepResult.fatal.inj hw).symm, hs, hi⟩⟩
  · exact ⟨_, _, h, rfl, nofun, fun hnot => absurd hrun (hnot r)⟩

/-! ### The step -/

section
variable {s : State}

theorem step_of_halted {r : FatalReason} (h : s.run = .halted r) :
    step s = .next { s with result := some (.fatal r) } := by
  unfold step
  split <;> simp_all [stayHalted]

section
variable (hrun : ∀ r, s.run ≠ .halted r)
include hrun

theorem step_of_out_of_bounds (hpc : 4094 < s.pc.toNat) :
    step s = .next { s with run := .halted .fetchOutOfBounds, result := some (.fatal .fetchOutOfBounds) } := by
  have hf : ¬ s.canFetch = true := fun h => absurd (State.canFetch_iff.mp h) (by omega)
  unfold step
  split
  · next r hr => exact absurd hr (hrun r)
  · exact if_neg hf

theorem step_of_unknown (hpc : s.pc.toNat ≤ 4094) {w : Word} (hw : decode s.fetchWord = .unknown w) :
    step s = .next { s with pc := s.pc + 2, result := some (.unknownOpcode w) } := by
  unfold step
  split
  · next r hr => exact absurd hr (hrun r)
  · rw [if_pos (State.canFetch_iff.mpr hpc), hw]
    rfl

theorem step_of_known (hpc : s.pc.toNat ≤ 4094) {i : Instr} (hi : decode s.fetchWord = .known i) :
    step s = exec i s := by
  unfold step
  split
  · next r hr => exact absurd hr (hrun r)
  · rw [if_pos (State.canFetch_iff.mpr hpc), hi]

end

theorem halted_or_not (s : State) : (∃ r, s.run = .halted r) ∨ ∀ r, s.run ≠ .halted r := by
  cases h : s.run with
  | running | waiting => exact .inr nofun
  | halted r => exact .inl ⟨r, rfl⟩

/-- No step stops the model. -/
theorem step_answers (s : State) : ∃ t, step s = .next t := by
  rcases halted_or_not s with ⟨r, hr⟩ | hr
  · exact ⟨_, step_of_halted hr⟩
  · rcases Nat.lt_or_ge 4094 s.pc.toNat with hpc | hpc
    · exact ⟨_, step_of_out_of_bounds hr hpc⟩
    · cases hd : decode s.fetchWord with
      | known i => exact step_of_known hr hpc hd ▸ exec_answers s i
      | unknown w => exact ⟨_, step_of_unknown hr hpc hd⟩

end

/-- Settles O6. It is the last case of the step. -/
theorem stepRunsTheDecodedInstruction : Obligations.StepRunsTheDecodedInstruction := by
  unfold Obligations.StepRunsTheDecodedInstruction
  exact fun s i hrun hpc hi => step_of_known hrun hpc hi

/-- Settles O7. Line by line: the step's four cases, then `CALL` and `RET` by the depth of the stack. -/
theorem stepFollowsTheStepAlgorithm : Obligations.StepFollowsTheStepAlgorithm := by
  unfold Obligations.StepFollowsTheStepAlgorithm
  refine fun s => ⟨fun r => step_of_halted, fun hrun => ⟨step_of_out_of_bounds hrun,
    fun hpc => ⟨fun w => step_of_unknown hrun hpc, fun i => step_of_known hrun hpc⟩,
    fun nnn => execCall_eq_of_full, ?call, execRet_eq_of_empty, ?ret, ?key, ?other⟩⟩
  case call => exact fun nnn hs => ⟨_, execCall_eq_of_lt (by omega), rfl⟩
  case ret => exact fun hs => ⟨_, execRet_eq_of_pos (by omega), rfl⟩
  case key =>
    intro x
    obtain ⟨t, h⟩ := exec_answers s (.ldVxK x)
    rcases exec_result h with hr | ⟨rfl, -⟩ | ⟨-, -, _, hi⟩ | ⟨-, -, hi⟩ | ⟨r, hr, -⟩
    · exact ⟨t, h, .inr hr⟩
    · exact ⟨_, h, .inl rfl⟩
    · cases hi
    · cases hi
    · exact absurd hr (hrun r)
  case other =>
    intro i hcall hret hkey
    obtain ⟨t, h⟩ := exec_answers s i
    exact ⟨t, h, exec_continues hcall hret hkey h⟩

/-- Settles O8. The four cases of the step, the last one by the results an instruction can answer. -/
theorem everyStepAnswersOneResult : Obligations.EveryStepAnswersOneResult := by
  unfold Obligations.EveryStepAnswersOneResult
  intro s
  obtain ⟨t, h⟩ := step_answers s
  rcases step_cases h with ⟨r, hr, rfl⟩ | ⟨-, -, rfl⟩ | ⟨-, hpc, w, hw, rfl⟩ | ⟨hrun, hpc, i, hi, hexec⟩
  · exact ⟨_, _, h, rfl, nofun, nofun, fun why hwhy => by cases hwhy; rw [← hr], nofun⟩
  · exact ⟨_, _, h, rfl, nofun, nofun, fun why hwhy => by cases hwhy; rfl, nofun⟩
  · obtain rfl := unknown_of_decode hw
    exact ⟨_, _, h, rfl, nofun, fun u hu => by cases hu; exact ⟨rfl, rfl, hw, hpc⟩, nofun, nofun⟩
  · rcases exec_result hexec with hr | ⟨rfl, x, rfl⟩ | ⟨rfl, -⟩ | ⟨rfl, -⟩ | ⟨r, hr, -⟩
    · exact ⟨t, _, h, hr, nofun, nofun, nofun, fun _ => ⟨i, hi, hexec, hpc⟩⟩
    · exact ⟨_, _, h, rfl, fun _ => ⟨rfl, x, hi⟩, nofun, nofun, nofun⟩
    · exact ⟨_, _, h, rfl, nofun, nofun, fun why hwhy => by cases hwhy; rfl, nofun⟩
    · exact ⟨_, _, h, rfl, nofun, nofun, fun why hwhy => by cases hwhy; rfl, nofun⟩
    · exact absurd hr (hrun r)

end Sys2Proof.Machine
end

section
/-! PROOF. Which instructions change which piece of state (spec/10_state.md R21 to R29). -/

namespace Sys2Proof.Machine

/-! ### What changes each piece of state -/

section
variable {i : Instr} {s : State}

theorem work_mem_writers (h : (work i s).mem ≠ s.mem) : ∃ x, i = .ldB x ∨ i = .ldMemVx x := by
  cases i with
  | ldB x => exact ⟨x, .inl rfl⟩
  | ldMemVx x => exact ⟨x, .inr rfl⟩
  | _ => simp [work] at h

/-- Without `Q_MEM_INC_I` a transfer leaves `I` (R154, R155). -/
theorem qMemIncI_of_indexAfter {x : RegIx} {a : Word} (h : indexAfter Config.qMemIncI x a ≠ a) :
    Config.qMemIncI = true := by
  by_contra hq
  exact h (if_neg hq)

theorem work_I_writers (h : (work i s).I ≠ s.I) : (∃ nnn, i = .ldI nnn) ∨ (∃ x, i = .addI x ∨ i = .ldF x) ∨
    (Config.qMemIncI = true ∧ ∃ x, i = .ldMemVx x ∨ i = .ldVxMem x) := by
  cases i with
  | ldI nnn => exact .inl ⟨nnn, rfl⟩
  | addI x => exact .inr (.inl ⟨x, .inl rfl⟩)
  | ldF x => exact .inr (.inl ⟨x, .inr rfl⟩)
  | ldMemVx x => exact .inr (.inr ⟨qMemIncI_of_indexAfter h, x, .inl rfl⟩)
  | ldVxMem x => exact .inr (.inr ⟨qMemIncI_of_indexAfter h, x, .inr rfl⟩)
  | _ => simp [work] at h

theorem work_DT_writers (h : (work i s).DT ≠ s.DT) : ∃ x, i = .ldDTVx x ∧ (work i s).DT = s.getV x := by
  cases i with
  | ldDTVx x => exact ⟨x, rfl, rfl⟩
  | _ => simp [work] at h

theorem work_ST_writers (h : (work i s).ST ≠ s.ST) : ∃ x, i = .ldSTVx x ∧ (work i s).ST = s.getV x := by
  cases i with
  | ldSTVx x => exact ⟨x, rfl, rfl⟩
  | _ => simp [work] at h

theorem work_fb_writers (h : (work i s).fb ≠ s.fb) : i = .cls ∨ ∃ x y n, i = .drw x y n := by
  cases i with
  | cls => exact .inl rfl
  | drw x y n => exact .inr ⟨x, y, n, rfl⟩
  | _ => simp [work] at h

theorem work_draws_writers (h : (work i s).draws ≠ s.draws) : ∃ x nn, i = .rnd x nn := by
  cases i with
  | rnd x nn => exact ⟨x, nn, rfl⟩
  | _ => simp [work] at h

end

/-- Settles O46. A plain instruction changes what its work changes, a skip or jump nothing but `pc`, and `CALL`, `RET`
and `LD Vx,K` the stack, the keypad sample and `run`. -/
theorem eachPieceOfStateHasItsWriters : Obligations.EachPieceOfStateHasItsWriters := by
  unfold Obligations.EachPieceOfStateHasItsWriters
  intro i s t h
  rcases exec_cases h with ⟨-, rfl⟩ | ⟨-, rfl⟩ | ⟨-, rfl⟩ | ⟨nnn, rfl, h⟩ | ⟨rfl, h⟩ | ⟨x, rfl, h⟩
  · exact ⟨work_mem_writers, work_I_writers, absurd (work_stack i s), absurd (work_sp i s),
      fun hne => (work_DT_writers hne).imp fun _ => And.left, fun hne => (work_ST_writers hne).imp fun _ => And.left,
      work_fb_writers, work_key i s, absurd (work_run i s), absurd (work_keyPrev i s), work_draws_writers⟩
  · simp
  · simp
  · rcases execCall_depth_cases h with ⟨-, rfl⟩ | ⟨-, rfl⟩ <;> simp
  · rcases execRet_depth_cases h with ⟨-, rfl⟩ | ⟨-, rfl⟩ <;> simp
  · rcases execLdVxK_cases h with ⟨-, rfl⟩ | ⟨-, _, -, rfl⟩ | ⟨_, -, rfl⟩ <;> simp

/-! ### The registers -/

section
variable (i : Instr) (s : State)

theorem work_getV {k : RegIx} (hk : ¬ MayWriteReg i k) : (work i s).getV k = s.getV k := by
  cases i with
  | ldImm x _ | addImm x _ | rnd x _ | ldReg x _ | orReg x _ | andReg x _ | xorReg x _ | ldVxDT x =>
    exact State.getV_setV_ne s _ hk
  | addReg x _ | sub x _ | subn x _ | shr x _ | shl x _ =>
    obtain ⟨hx, hvf⟩ := not_or.mp hk
    exact getV_writeWithFlag_other s _ _ hx hvf
  | drw _ _ _ => exact State.getV_setV_ne _ _ hk
  | ldVxMem x => exact (State.getV_loadRegs _ _ s k).trans (if_neg (mt (mem_regsUpTo x k).mp hk))
  | ldB x => exact State.getV_congr (by rw [work, State.storeBytes_frame]) k
  | ldMemVx x => exact State.getV_congr (by rw [work, State.dumpRegs_frame]) k
  | _ => rfl

theorem flagByte_zero_or_one (c : Bool) : flagByte c = 0 ∨ flagByte c = 1 := by
  cases c
  · exact .inl rfl
  · exact .inr rfl

theorem work_flag (hw : WritesFlag i) : (work i s).getV 15 = 0 ∨ (work i s).getV 15 = 1 := by
  cases i with
  | addReg x _ | sub x _ | subn x _ | shr x _ | shl x _ =>
    rw [work, show (15 : RegIx) = vf from rfl, getV_writeWithFlag_vf]
    exact flagByte_zero_or_one _
  | drw _ _ _ =>
    rw [work, show (15 : RegIx) = vf from rfl, State.getV_setV_same]
    exact flagByte_zero_or_one _
  | _ => cases hw

end

/-- The flag writers are plain instructions (R22). -/
theorem kind_of_writesFlag {i : Instr} (hw : WritesFlag i) : kindOf i = .plain := by
  cases i <;> cases hw <;> rfl

/-- Settles O45. A plain instruction writes what its work writes; of the others only `LD Vx,K` writes a register. -/
theorem registersChangeOnlyByName : Obligations.RegistersChangeOnlyByName := by
  unfold Obligations.RegistersChangeOnlyByName
  intro i s t h
  rcases exec_cases h with ⟨-, rfl⟩ | ⟨hk, rfl⟩ | ⟨hk, rfl⟩ | ⟨nnn, rfl, h⟩ | ⟨rfl, h⟩ | ⟨x, rfl, h⟩
  · exact ⟨fun k => work_getV i s, work_flag i s⟩
  · exact ⟨fun _ _ => rfl, fun hw => by rw [kind_of_writesFlag hw] at hk; cases hk⟩
  · exact ⟨fun _ _ => rfl, fun hw => by rw [kind_of_writesFlag hw] at hk; cases hk⟩
  · rcases execCall_depth_cases h with ⟨-, rfl⟩ | ⟨-, rfl⟩ <;> exact ⟨fun _ _ => rfl, False.elim⟩
  · rcases execRet_depth_cases h with ⟨-, rfl⟩ | ⟨-, rfl⟩ <;> exact ⟨fun _ _ => rfl, False.elim⟩
  · rcases execLdVxK_cases h with ⟨-, rfl⟩ | ⟨-, _, -, rfl⟩ | ⟨_, -, rfl⟩
    · exact ⟨fun _ _ => rfl, False.elim⟩
    · exact ⟨fun _ hx => State.getV_setV_ne s _ hx, False.elim⟩
    · exact ⟨fun _ _ => rfl, False.elim⟩

/-! ### The program counter -/

theorem eq_of_skip {i : Instr} (hk : kindOf i = .skip) :
    (∃ x nn, i = .seImm x nn ∨ i = .sneImm x nn) ∨ (∃ x y, i = .seReg x y ∨ i = .sneReg x y) ∨
      ∃ x, i = .skp x ∨ i = .sknp x := by
  cases i <;> cases hk <;> simp

theorem toNat_jumpTarget_jpV0 (nnn : Addr12) (s : State) :
    (jumpTarget (.jpV0 nnn) s).toNat = nnn.toNat + (s.getV 0).toNat := by
  have hnnn := nnn.isLt
  have hv0 := (s.getV 0).isLt
  rw [jumpTarget, BitVec.toNat_add, toNat_zext16, toNat_zextByte]
  omega

/-- The two jumps and where they go (R101, R104). -/
theorem jumpTarget_cases {i : Instr} (hk : kindOf i = .jump) (s : State) :
    (∃ nnn, i = .jp nnn ∧ (jumpTarget i s).toNat = nnn.toNat) ∨
    ∃ nnn, i = .jpV0 nnn ∧ (jumpTarget i s).toNat = nnn.toNat + (s.getV 0).toNat := by
  cases i <;> cases hk
  · exact .inl ⟨_, rfl, toNat_zext16 _⟩
  · exact .inr ⟨_, rfl, toNat_jumpTarget_jpV0 _ s⟩

/-- Settles O47. Kind by kind. -/
theorem pcMovesByTheKindOfInstruction : Obligations.PcMovesByTheKindOfInstruction := by
  unfold Obligations.PcMovesByTheKindOfInstruction
  intro i s t h
  rcases exec_cases h with ⟨hk, rfl⟩ | ⟨hk, rfl⟩ | ⟨hk, rfl⟩ | ⟨nnn, rfl, h⟩ | ⟨rfl, h⟩ | ⟨x, rfl, h⟩
  · refine ⟨absurd rfl, fun _ => .inl ⟨rfl, ?_, fun nnn => ⟨?_, ?_, ?_⟩⟩⟩ <;> (rintro rfl; cases hk)
  · refine ⟨absurd rfl, fun _ => ?_⟩
    cases hc : skipTest i s with
    | true => exact .inr (.inl ⟨by simp, eq_of_skip hk⟩)
    | false =>
      refine .inl ⟨by simp, ?_, fun nnn => ⟨?_, ?_, ?_⟩⟩ <;> (rintro rfl; cases hk)
  · refine ⟨absurd rfl, fun _ => ?_⟩
    rcases jumpTarget_cases hk s with ⟨nnn, rfl, hpc⟩ | ⟨nnn, rfl, hpc⟩
    · exact .inr (.inr (.inl ⟨nnn, .inl rfl, hpc⟩))
    · exact .inr (.inr (.inr (.inl ⟨nnn, rfl, hpc⟩)))
  · rcases execCall_depth_cases h with ⟨-, rfl⟩ | ⟨-, rfl⟩
    · exact ⟨absurd rfl, fun _ => .inr (.inr (.inl ⟨nnn, .inr rfl, toNat_zext16 nnn⟩))⟩
    · exact ⟨fun _ => rfl, nofun⟩
  · rcases execRet_depth_cases h with ⟨hs, rfl⟩ | ⟨-, rfl⟩
    · refine ⟨absurd rfl, fun _ => .inr (.inr (.inr (.inr ⟨rfl, ⟨s.sp.val - 1, by omega⟩, ?_, rfl⟩)))⟩
      exact Nat.sub_add_cancel hs
    · exact ⟨fun _ => rfl, nofun⟩
  · rcases execLdVxK_cases h with ⟨-, rfl⟩ | ⟨-, _, -, rfl⟩ | ⟨_, -, rfl⟩
    · exact ⟨fun _ => rfl, nofun⟩
    · exact ⟨absurd rfl, fun _ => .inl ⟨rfl, nofun, fun _ => ⟨nofun, nofun, nofun⟩⟩⟩
    · exact ⟨fun _ => rfl, nofun⟩

end Sys2Proof.Machine
end

section
/-! PROOF. Control transfer (spec/40_control_transfer.md R101 to R104): the jumps, and the stack over `CALL` and
`RET`. -/

namespace Sys2Proof.Machine

/-- A jump moves `pc` alone. -/
theorem exec_jump_completes {i : Instr} (hk : kindOf i = .jump) (s : State) {n : Nat}
    (hn : (jumpTarget i s).toNat = n) :
    ∃ t, exec i s = .next t ∧ t.result = some .continued ∧ t.pc.toNat = n ∧ OnlyPc s t :=
  ⟨_, exec_jump hk s, rfl, hn, rfl⟩

/-- Settles O11. Both are jumps, to the target as a number. -/
theorem jumpsSetThePcAlone : Obligations.JumpsSetThePcAlone := by
  unfold Obligations.JumpsSetThePcAlone
  exact fun s nnn => ⟨exec_jump_completes rfl s (toNat_zext16 nnn),
    exec_jump_completes rfl s (toNat_jumpTarget_jpV0 nnn s)⟩

section
variable {s : State} {v : Word} (h : s.sp.val < 16)
include h

theorem stack_set_sp_same {k : Fin 16} (hk : k.val = s.sp.val) : (s.stack.set s.sp.val v h)[k] = v := by
  simp [hk]

theorem stack_set_sp_other {k : Fin 16} (hk : k.val ≠ s.sp.val) : (s.stack.set s.sp.val v h)[k] = s.stack[k] := by
  rw [Fin.getElem_fin, Vector.getElem_set_ne _ _ hk.symm, Fin.getElem_fin]

end

/-- Settles O13. The new entry stands at the old depth. -/
theorem callPushesTheReturnAddress : Obligations.CallPushesTheReturnAddress := by
  unfold Obligations.CallPushesTheReturnAddress
  exact fun s nnn h => ⟨_, execCall_eq_of_lt h, rfl, toNat_zext16 nnn, rfl, fun k => stack_set_sp_same h,
    fun k => stack_set_sp_other h, rfl⟩

/-- Settles O14. The entry popped stands below the depth. -/
theorem returnPopsTheMostRecentCall : Obligations.ReturnPopsTheMostRecentCall := by
  unfold Obligations.ReturnPopsTheMostRecentCall
  refine fun s => ⟨fun h => ⟨_, execRet_eq_of_pos h, rfl, Nat.sub_add_cancel h, fun k hk => ?top, rfl⟩,
    execRet_eq_of_empty⟩
  case top =>
    have hk' : s.sp.val - 1 = k.val := by omega
    simp [hk']

/-- Settles O15. The top entry after the `CALL` is the address after it, and the entries below are the caller's. -/
theorem callThenReturnResumesTheCaller : Obligations.CallThenReturnResumesTheCaller := by
  unfold Obligations.CallThenReturnResumesTheCaller
  refine fun s nnn h => ⟨_, execCall_eq_of_lt h, fun u hstack hsp => ?_⟩
  have hval : u.sp.val = s.sp.val + 1 := congrArg Fin.val hsp
  refine ⟨_, execRet_eq_of_pos (by omega), ?pc, ?depth, fun k hk => ?below⟩
  case pc => simp [hstack, hval]
  case depth => exact Fin.ext (by simp [hval])
  case below =>
    show u.stack[k] = s.stack[k]
    rw [hstack]
    exact stack_set_sp_other h (Nat.ne_of_lt hk)

end Sys2Proof.Machine
end

section
/-! PROOF. The instructions that write one register, with a flag or without (spec/41_alu.md, spec/44_keypad_timers.md
R183). -/

namespace Sys2Proof.Machine

/-- The write of one register and the ordinary end, for what is known of the value written. -/
theorem setV_completes (s : State) (x : RegIx) {b : Byte} {P : Byte → Prop} (hb : P b) :
    ∃ t, proceed (s.setV x b) = .next t ∧ EndsNormally s t ∧ P (t.getV x) ∧ RegsKept s t (· = x) ∧
      OnlyRegsPc s t := by
  refine ⟨_, proceed_eq_next.mpr rfl, ⟨rfl, rfl⟩, ?value, fun k hk => State.getV_setV_ne s b hk, rfl⟩
  case value => exact (State.getV_setV_same s x b).symm ▸ hb

/-- Settles O16. Each is the write of one register. -/
theorem registerLoadsWriteOnlyTheDestination : Obligations.RegisterLoadsWriteOnlyTheDestination := by
  unfold Obligations.RegisterLoadsWriteOnlyTheDestination
  exact fun s x y nn => ⟨setV_completes s x (P := (· = nn)) rfl, setV_completes s x (P := (· = s.getV y)) rfl,
    setV_completes s x (P := (· = s.DT)) rfl⟩

/-- Settles O17. Each is the write of one register, with its result as a number or bit by bit. -/
theorem addImmediateAndBitwiseLeaveTheFlag : Obligations.AddImmediateAndBitwiseLeaveTheFlag := by
  unfold Obligations.AddImmediateAndBitwiseLeaveTheFlag
  intro s x y nn
  exact ⟨setV_completes s x (P := fun b => b.toNat = ((s.getV x).toNat + nn.toNat) % 256) (toNat_sumByte _ _),
    setV_completes s x (P := fun b => ∀ j, b.getLsbD j = ((s.getV x).getLsbD j || (s.getV y).getLsbD j))
      fun _ => BitVec.getLsbD_or,
    setV_completes s x (P := fun b => ∀ j, b.getLsbD j = ((s.getV x).getLsbD j && (s.getV y).getLsbD j))
      fun _ => BitVec.getLsbD_and,
    setV_completes s x (P := fun b => ∀ j, b.getLsbD j = ((s.getV x).getLsbD j ^^ (s.getV y).getLsbD j))
      fun _ => BitVec.getLsbD_xor⟩

/-- Settles O20. The result is the reversed difference and the flag decides that no borrow arises. -/
theorem reverseSubtractDifferenceAndNoBorrow : Obligations.ReverseSubtractDifferenceAndNoBorrow := by
  unfold Obligations.ReverseSubtractDifferenceAndNoBorrow
  intro s x y
  obtain ⟨t, hnext, hend, hresult, hflag, hkept, hframe⟩ :=
    writeWithFlag_completes noBorrow_iff s x (diffByte (s.getV y) (s.getV x))
  exact ⟨t, hnext, hend, fun hx => by rw [hresult hx, toNat_diffByte_int], hflag, hkept, hframe⟩

/-! ### Shifts -/

theorem lowBit_iff {b : Byte} : lowBit b = true ↔ b.getLsbD 0 = true := by
  rw [lowBit, BitVec.getLsbD, Nat.testBit_zero]

theorem highBit_iff {b : Byte} : highBit b = true ↔ b.getLsbD 7 = true := by
  have hb := b.isLt
  rw [highBit, BitVec.getLsbD, Nat.testBit_eq_decide_div_mod_eq, decide_eq_true_iff, decide_eq_true_iff]
  omega

/-- Settles O21. The flag of each shift decides the bit shifted out of the quirk's source. -/
theorem shiftsByOneAndTheBitShiftedOut : Obligations.ShiftsByOneAndTheBitShiftedOut := by
  unfold Obligations.ShiftsByOneAndTheBitShiftedOut
  rintro s x y b rfl
  obtain ⟨t, hnext, hend, hresult, hflag, hkept, hframe⟩ :=
    writeWithFlag_completes lowBit_iff s x (halfByte (shiftSource Config.qShiftVy x y s))
  obtain ⟨u, hnext', hend', hresult', hflag', hkept', hframe'⟩ :=
    writeWithFlag_completes highBit_iff s x (doubleByte (shiftSource Config.qShiftVy x y s))
  exact ⟨⟨t, hnext, hend, fun hx => by rw [hresult hx, toNat_halfByte]; rfl, hflag, hkept, hframe⟩,
    ⟨u, hnext', hend', fun hx => by rw [hresult' hx, toNat_doubleByte]; rfl, hflag', hkept', hframe'⟩⟩

/-! ### The free byte -/

/-- Settles O22. The written byte is the draw under the mask, bit by bit. -/
theorem randomIsTheFreeDrawUnderTheMask : Obligations.RandomIsTheFreeDrawUnderTheMask := by
  unfold Obligations.RandomIsTheFreeDrawUnderTheMask
  have hbits : ∀ (s : State) (x : RegIx) (draw nn : Byte) (j : Nat),
      ((s.setV x (draw &&& nn)).getV x).getLsbD j = (draw.getLsbD j && nn.getLsbD j) := fun s x draw nn j => by
    rw [State.getV_setV_same, BitVec.getLsbD_and]
  refine fun s x nn => ⟨rfl, ⟨_, proceed_eq_next.mpr rfl, ⟨rfl, rfl⟩, fun j hj => ?mask,
    fun k hk => State.getV_setV_ne s _ hk, rfl⟩, fun draw => ⟨_, proceed_eq_next.mpr rfl, hbits s x draw nn⟩⟩
  case mask => exact (hbits s x _ nn j).trans (by rw [hj, Bool.and_false])

end Sys2Proof.Machine
end

section
/-! PROOF. The writes of `I` (spec/42_index_memory.md R150 to R152), the timers' loads and the skips on a key
(spec/44_keypad_timers.md R180, R181, R184, R185). -/

namespace Sys2Proof.Machine

/-- Settles O23. Each is plain, with the new index as a number. -/
theorem indexWritesChangeOnlyTheIndex : Obligations.IndexWritesChangeOnlyTheIndex := by
  unfold Obligations.IndexWritesChangeOnlyTheIndex
  intro s nnn x
  refine ⟨⟨_, exec_plain_next rfl s, ⟨rfl, rfl⟩, toNat_zext16 nnn, rfl⟩,
    ⟨_, exec_plain_next rfl s, ⟨rfl, rfl⟩, ?sum, rfl⟩, ⟨_, exec_plain_next rfl s, ⟨rfl, rfl⟩, toNat_glyphAddr _, rfl⟩⟩
  case sum => exact (BitVec.toNat_add _ _).trans (by rw [toNat_zextByte])

theorem soundActive_iff {s : State} : s.soundActive = true ↔ s.ST.toNat ≠ 0 := by
  rw [State.soundActive, bne_iff_ne, ne_eq, ← BitVec.toNat_inj]
  rfl

/-- Settles O37. Each is plain and writes its timer alone. -/
theorem timerLoadsCopyTheRegister : Obligations.TimerLoadsCopyTheRegister := by
  unfold Obligations.TimerLoadsCopyTheRegister
  exact fun s x => ⟨⟨_, exec_plain_next rfl s, ⟨rfl, rfl⟩, rfl, rfl⟩,
    ⟨_, exec_plain_next rfl s, ⟨rfl, rfl⟩, rfl, rfl, soundActive_iff, rfl⟩⟩

/-- Settles O34. Both are skips, on the level of the key the low nibble names. -/
theorem keySkipsReadTheLevel : Obligations.KeySkipsReadTheLevel := by
  unfold Obligations.KeySkipsReadTheLevel
  intro s x k hk
  have hkey : lowNibble (s.getV x) = k := Fin.ext ((val_lowNibble _).trans hk.symm)
  refine ⟨⟨_, exec_skip rfl s, rfl, ?down, rfl⟩, ⟨_, exec_skip rfl s, rfl, ?up, rfl⟩⟩
  case down => simp [skipTest, hkey]
  case up => cases hd : s.key[k] <;> simp [skipTest, hkey, hd]

end Sys2Proof.Machine
end

section
/-! PROOF. The instructions that store to memory and load from it (spec/42_index_memory.md R152 to R156,
spec/20_memory.md R51 to R60): a transfer is a store of bytes at ascending addresses, and what it leaves and reads back
is what `storeBytes` does. -/

namespace Sys2Proof.Machine

/-! ### Addresses and reads -/

/-- An address is taken modulo the size of memory (R53). -/
theorem State.memRead_mod_congr (s : State) {a b : Nat} (h : a % 4096 = b % 4096) : s.memRead a = s.memRead b :=
  congrArg s.mem.read h

/-- What a state whose memory is that of a store reads outside the stored bytes and in the font ROM (R53, R57). -/
theorem memKeptOutside_storeBytes {s t : State} {base : Nat} {bs : List Byte} (h : t.mem = (s.storeBytes base bs).mem) :
    MemKeptOutside s t base bs.length := by
  intro a ha
  rw [State.memRead_congr h]
  rcases ha with hout | hfont
  · exact State.memRead_storeBytes_outside s base a bs hout
  · exact State.memRead_storeBytes_font s base a bs hfont

/-! ### The font -/

/-- Settles O24. A glyph's five rows lie in the font ROM, which reads its own bytes in every state. -/
theorem fontRomHoldsTheGlyphs : Obligations.FontRomHoldsTheGlyphs := by
  unfold Obligations.FontRomHoldsTheGlyphs
  refine ⟨rfl, fun s x => ⟨_, exec_plain_next rfl s, fun r hr => ?glyph⟩,
    fun s a b hlo hhi => State.memWrite_font s b (isFont_iff.mpr ⟨hlo, hhi⟩)⟩
  case glyph =>
    show State.memRead _ ((glyphAddr (s.getV x)).toNat + r) = _
    have hglyph : (s.getV x).toNat % 16 < 16 := Nat.mod_lt _ (by decide)
    rw [toNat_glyphAddr, State.memRead_fontBytes _ (by omega) (by omega), Nat.add_assoc, Nat.add_sub_cancel_left]

/-! ### The decimal digits -/

section
variable (b : Byte)

theorem toNat_hundreds : (BitVec.ofNat 8 (b.toNat / 100)).toNat = b.toNat / 100 := by
  have := b.isLt
  rw [BitVec.toNat_ofNat]
  omega

theorem toNat_tens : (BitVec.ofNat 8 (b.toNat / 10 % 10)).toNat = b.toNat / 10 % 10 := by
  rw [BitVec.toNat_ofNat]
  omega

theorem toNat_ones : (BitVec.ofNat 8 (b.toNat % 10)).toNat = b.toNat % 10 := by
  rw [BitVec.toNat_ofNat]
  omega

end

/-- Settles O25. The three stored bytes are read back as the three digits. -/
theorem decimalStoreWritesThreeDigits : Obligations.DecimalStoreWritesThreeDigits := by
  unfold Obligations.DecimalStoreWritesThreeDigits
  intro s x hw
  have hfits : (decimalDigits (s.getV x)).length ≤ Config.memSize := (by decide : 3 ≤ 4096)
  have hread : ∀ (k : Nat) (hk : k < (decimalDigits (s.getV x)).length), isFont ((s.I.toNat + k) % 4096) = false →
      (work (.ldB x) s).memRead (s.I.toNat + k) = (decimalDigits (s.getV x))[k] := fun k hk =>
    State.memRead_storeBytes_inside _ k _ hw hfits hk
  refine ⟨_, exec_plain_next rfl s, ⟨rfl, rfl⟩, fun hf => ?_, fun hf => ?_, fun hf => ?_,
    memKeptOutside_storeBytes (bs := decimalDigits (s.getV x)) rfl, ?frame⟩
  · exact (congrArg BitVec.toNat (hread 0 (by decide : 0 < 3) hf)).trans (toNat_hundreds _)
  · exact (congrArg BitVec.toNat (hread 1 (by decide : 1 < 3) hf)).trans (toNat_tens _)
  · exact (congrArg BitVec.toNat (hread 2 (by decide : 2 < 3) hf)).trans (toNat_ones _)
  case frame => rw [work, State.storeBytes_frame]

/-! ### Transfers of registers -/

/-- A dump of V0..VX reads back as the registers, outside the font ROM (R154). -/
theorem State.memRead_dumpRegs {s : State} {base : Nat} {x k : RegIx} (hw : s.mem.wf = true) (hk : k.val ≤ x.val)
    (hf : isFont ((base + k.val) % 4096) = false) :
    (s.dumpRegs base (regsUpTo x)).memRead (base + k.val) = s.getV k := by
  have hlen : ((regsUpTo x).map s.getV).length = x.val + 1 := by rw [List.length_map, length_regsUpTo]
  have hfits : x.val + 1 ≤ 4096 := by omega
  rw [State.dumpRegs_eq_storeBytes,
    State.memRead_storeBytes_inside base k.val _ hw (hlen.trans_le hfits) (by omega) hf, List.getElem_map,
    getElem_regsUpTo]

theorem memKeptOutside_dumpRegs {s t : State} {base : Nat} {x : RegIx}
    (h : t.mem = (s.dumpRegs base (regsUpTo x)).mem) : MemKeptOutside s t base (x.val + 1) := by
  rw [State.dumpRegs_eq_storeBytes] at h
  have hkept := memKeptOutside_storeBytes h
  rwa [List.length_map, length_regsUpTo] at hkept

theorem toNat_indexAfter (q : Bool) (x : RegIx) (i : Word) :
    (indexAfter q x i).toNat = if q then (i.toNat + x.val + 1) % 65536 else i.toNat := by
  cases q with
  | false => rfl
  | true =>
    have hx := x.isLt
    simp only [indexAfter, if_true, BitVec.toNat_add, BitVec.toNat_ofNat]
    omega

/-- Settles O26. A dump is a store of the registers' bytes. -/
theorem registerDumpStoresTheRange : Obligations.RegisterDumpStoresTheRange := by
  unfold Obligations.RegisterDumpStoresTheRange
  refine fun s x hw => ⟨_, exec_plain_next rfl s, ⟨rfl, rfl⟩, fun k hk hf => State.memRead_dumpRegs hw hk hf,
    memKeptOutside_dumpRegs rfl, toNat_indexAfter _ x s.I, ?frame⟩
  case frame => rw [work, State.dumpRegs_frame]

/-- Settles O27. The registers of the range are those the load names. -/
theorem registerLoadReadsTheRange : Obligations.RegisterLoadReadsTheRange := by
  unfold Obligations.RegisterLoadReadsTheRange
  refine fun s x => ⟨_, exec_plain_next rfl s, ⟨rfl, rfl⟩, fun k hk => ?loaded, fun k hk => work_getV _ s hk,
    toNat_indexAfter _ x s.I, ?frame⟩
  case loaded =>
    have hmem : k ∈ regsUpTo x := (mem_regsUpTo x k).mpr hk
    rw [State.memRead_mod_congr s (Nat.mod_mod _ _)]
    exact (State.getV_loadRegs _ _ s k).trans (if_pos hmem)
  case frame => rw [work, State.loadRegs_frame]

/-- Settles O28. What the load reads is what the dump stored. -/
theorem dumpThenLoadRestoresTheRegisters : Obligations.DumpThenLoadRestoresTheRegisters := by
  unfold Obligations.DumpThenLoadRestoresTheRegisters
  refine fun s x hw hf => ⟨_, exec_plain_next rfl s, fun u hmem hI => ⟨_, exec_plain_next rfl u, fun k hk => ?_⟩⟩
  have hin : k ∈ regsUpTo x := (mem_regsUpTo x k).mpr hk
  calc (u.loadRegs u.I.toNat (regsUpTo x)).getV k
      = u.memRead (u.I.toNat + k.val) := (State.getV_loadRegs _ _ u k).trans (if_pos hin)
    _ = (s.dumpRegs s.I.toNat (regsUpTo x)).memRead (s.I.toNat + k.val) := by rw [hI]; exact State.memRead_congr hmem _
    _ = s.getV k := State.memRead_dumpRegs hw hk (hf k.val hk)

/-- Settles O29. The two bytes at the next `pc` are the first two the dump stored. -/
theorem storedBytesAreTheNextInstruction : Obligations.StoredBytesAreTheNextInstruction := by
  unfold Obligations.StoredBytesAreTheNextInstruction
  intro s x hw hrun hpc hi hx hI hf2 hf3
  have hnext : (s.pc + 2).toNat = s.pc.toNat + 2 := by rw [BitVec.toNat_add]; simp; omega
  have hread : ∀ k : RegIx, k.val ≤ x.val → k.val ≤ 1 → isFont (s.pc.toNat + 2 + k.val) = false →
      (work (.ldMemVx x) s).memRead ((s.pc + 2).toNat + k.val) = s.getV k := fun k hk hk1 hf => by
    have haddr : (s.I.toNat + k.val) % 4096 = s.pc.toNat + 2 + k.val := by omega
    rw [hnext, State.memRead_mod_congr _ (b := s.I.toNat + k.val) (by omega)]
    exact State.memRead_dumpRegs hw hk (haddr ▸ hf)
  refine ⟨_, (step_of_known hrun (by omega) hi).trans (exec_plain_next rfl s), rfl, ?word⟩
  case word =>
    exact congrArg₂ wordOfBytes (hread 0 (Nat.zero_le _) (Nat.zero_le _) hf2) (hread 1 hx (Nat.le_refl _) hf3)

end Sys2Proof.Machine
end

section
/-! PROOF. Drawing a sprite (spec/43_display.md R171, R172). The loops over rows and columns are one plot for each lit
sprite pixel, and the pixels of a sprite of at most 15 rows land on cells that are all different, so no plot undoes
another: a cell flips exactly when some pixel lands on it. -/

namespace Sys2Proof.Machine

/-! ### Plotting at a list of positions -/

/-- One plot at each position, in turn. -/
def Drawing.plotAll (clip : Bool) (ps : List (Nat × Nat)) (d : Drawing) : Drawing :=
  ps.foldl (fun e p => e.plot clip p.1 p.2) d

/-- No two positions of the list land on the same cell. -/
def Apart (clip : Bool) (ps : List (Nat × Nat)) : Prop :=
  ps.Pairwise fun p q => ∀ x y, Lands clip p.1 p.2 x y → ¬ Lands clip q.1 q.2 x y

section
variable {clip : Bool} {ps : List (Nat × Nat)} (hps : Apart clip ps) (d : Drawing)
include hps

theorem Drawing.pixel_plotAll (x : Fin 64) (y : Fin 32) : (d.plotAll clip ps).fb.pixel x y =
    if ∃ p ∈ ps, Lands clip p.1 p.2 x y then !d.fb.pixel x y else d.fb.pixel x y := by
  induction ps generalizing d with
  | nil => simp [Drawing.plotAll]
  | cons p ps ih =>
    obtain ⟨hp, hps⟩ := List.pairwise_cons.mp hps
    have hrest := ih hps (d.plot clip p.1 p.2)
    rw [Drawing.pixel_plot] at hrest
    rw [Drawing.plotAll, List.foldl_cons]
    refine hrest.trans ?_
    by_cases hl : Lands clip p.1 p.2 x y
    · have hnone : ¬ ∃ q ∈ ps, Lands clip q.1 q.2 x y := fun ⟨q, hq, hlq⟩ => hp q hq x y hl hlq
      rw [if_neg hnone, if_pos hl, if_pos ⟨p, List.mem_cons_self, hl⟩]
    · simp only [hl, if_false, List.exists_mem_cons_iff, false_or]

theorem Drawing.collision_plotAll : (d.plotAll clip ps).collision = true ↔
    d.collision = true ∨ ∃ p ∈ ps, ∃ x y, Lands clip p.1 p.2 x y ∧ d.fb.pixel x y = true := by
  induction ps generalizing d with
  | nil => simp [Drawing.plotAll]
  | cons p ps ih =>
    obtain ⟨hp, hps⟩ := List.pairwise_cons.mp hps
    have hkept : ∀ q ∈ ps, ∀ x y, Lands clip q.1 q.2 x y →
        (d.plot clip p.1 p.2).fb.pixel x y = d.fb.pixel x y := fun q hq x y hlq => by
      rw [Drawing.pixel_plot, if_neg fun hl => hp q hq x y hl hlq]
    have hlit : (∃ q ∈ ps, ∃ x y, Lands clip q.1 q.2 x y ∧ (d.plot clip p.1 p.2).fb.pixel x y = true) ↔
        ∃ q ∈ ps, ∃ x y, Lands clip q.1 q.2 x y ∧ d.fb.pixel x y = true :=
      exists_congr fun q => and_congr_right fun hq => exists₂_congr fun x y => and_congr_right fun hl => by
        rw [hkept q hq x y hl]
    rw [Drawing.plotAll, List.foldl_cons]
    refine (ih hps _).trans ?_
    rw [Drawing.collision_plot, hlit, or_assoc, List.exists_mem_cons_iff]

end

/-! ### The lit pixels of a sprite -/

/-- The unreduced positions of the lit pixels of a sprite row, left to right (R171). -/
def rowSpots (x0 py : Nat) (b : Byte) : List (Nat × Nat) :=
  (spriteColumns.filter (spriteBit b)).map fun c => (x0 + c, py)

/-- The unreduced positions of the lit pixels of a sprite, row by row (R171). -/
def spots (x0 : Nat) : Nat → List Byte → List (Nat × Nat)
  | _, [] => []
  | py, b :: bs => rowSpots x0 py b ++ spots x0 (py + 1) bs

theorem Drawing.row_eq_plotAll (clip : Bool) (x0 py : Nat) (b : Byte) (d : Drawing) :
    d.row clip x0 py b = d.plotAll clip (rowSpots x0 py b) := by
  rw [Drawing.plotAll, rowSpots, List.foldl_map, List.foldl_filter, Drawing.row]

theorem Drawing.rows_eq_plotAll (clip : Bool) (x0 py : Nat) (bs : List Byte) (d : Drawing) :
    Drawing.rows clip x0 py bs d = d.plotAll clip (spots x0 py bs) := by
  induction bs generalizing py d with
  | nil => rfl
  | cons b bs ih =>
    rw [Drawing.rows, ih, Drawing.row_eq_plotAll, spots, Drawing.plotAll, Drawing.plotAll, Drawing.plotAll,
      List.foldl_append]

theorem mem_spriteColumns {c : Nat} : c ∈ spriteColumns ↔ c < 8 := List.mem_range (n := 8)

theorem mem_rowSpots {x0 py : Nat} {b : Byte} {p : Nat × Nat} :
    p ∈ rowSpots x0 py b ↔ ∃ c, c < 8 ∧ spriteBit b c = true ∧ p = (x0 + c, py) := by
  simp only [rowSpots, List.mem_map, List.mem_filter, mem_spriteColumns, and_assoc, eq_comm]

theorem mem_spots {x0 py : Nat} {bs : List Byte} {p : Nat × Nat} : p ∈ spots x0 py bs ↔
    ∃ r c, r < bs.length ∧ c < 8 ∧ spriteBit (bs.getD r 0) c = true ∧ p = (x0 + c, py + r) := by
  induction bs generalizing py with
  | nil => simp [spots]
  | cons b bs ih =>
    rw [spots, List.mem_append, mem_rowSpots, ih]
    constructor
    · rintro (⟨c, hc, hb, rfl⟩ | ⟨r, c, hr, hc, hb, rfl⟩)
      · exact ⟨0, c, by simp, hc, hb, rfl⟩
      · exact ⟨r + 1, c, by simpa using hr, hc, hb, by simp; omega⟩
    · rintro ⟨r, c, hr, hc, hb, rfl⟩
      cases r with
      | zero => exact .inl ⟨c, hc, hb, rfl⟩
      | succ r => exact .inr ⟨r, c, by simpa using hr, hc, hb, by simp; omega⟩

theorem nodup_spots (x0 py : Nat) (bs : List Byte) : (spots x0 py bs).Nodup := by
  induction bs generalizing py with
  | nil => exact List.nodup_nil
  | cons b bs ih =>
    have hrow : (rowSpots x0 py b).Nodup :=
      ((List.nodup_range (n := 8)).filter _).map fun c c' h => by simpa using h
    refine List.nodup_append'.mpr ⟨hrow, ih (py + 1), fun p hp hp' => ?_⟩
    obtain ⟨c, -, -, rfl⟩ := mem_rowSpots.mp hp
    obtain ⟨r, c', -, -, -, heq⟩ := mem_spots.mp hp'
    have hpy := congrArg Prod.snd heq
    simp only at hpy
    omega

/-- The box of a sprite, 8 columns and at most 15 rows, is smaller than the screen, so its pixels land apart (R171). -/
theorem apart_spots (clip : Bool) {x0 y0 : Nat} {bs : List Byte} (hlen : bs.length ≤ 15) :
    Apart clip (spots x0 y0 bs) := by
  refine (nodup_spots x0 y0 bs).imp_of_mem fun {p q} hp hq hne x y hlp hlq => hne ?_
  obtain ⟨r, c, hr, hc, -, rfl⟩ := mem_spots.mp hp
  obtain ⟨r', c', hr', hc', -, rfl⟩ := mem_spots.mp hq
  cases clip with
  | true =>
    simp only [Lands, if_true] at hlp hlq
    exact Prod.ext (hlp.1.trans hlq.1.symm) (hlp.2.trans hlq.2.symm)
  | false =>
    simp only [Lands, Bool.false_eq_true, if_false] at hlp hlq
    exact Prod.ext (by show x0 + c = x0 + c'; omega) (by show y0 + r = y0 + r'; omega)

/-! ### What `DRW` draws -/

section
variable (clip : Bool) (s : State) (x y : RegIx) (n : Nat)

/-- The sprite covers the cells its lit pixels land on (R171). -/
theorem spriteCovers_iff {px : Fin 64} {py : Fin 32} : SpriteCovers clip s x y n px py ↔
    ∃ p ∈ spots (originX (s.getV x)) (originY (s.getV y)) (s.spriteRows n), Lands clip p.1 p.2 px py := by
  have hlen : (s.spriteRows n).length = n := by simp [State.spriteRows]
  have hrow : ∀ r, r < n → (s.spriteRows n).getD r 0 = s.memRead (s.I.toNat + r) := fun r hr => by
    simp [State.spriteRows, List.getD_eq_getElem?_getD, hr]
  constructor
  · rintro ⟨r, c, hr, hc, hb, hl⟩
    exact ⟨_, mem_spots.mpr ⟨r, c, by rwa [hlen], hc, by rwa [hrow r hr], rfl⟩, hl⟩
  · rintro ⟨p, hp, hl⟩
    obtain ⟨r, c, hr, hc, hb, rfl⟩ := mem_spots.mp hp
    rw [hlen] at hr
    rw [hrow r hr] at hb
    exact ⟨r, c, hr, hc, hb, hl⟩

theorem State.drawing_eq_plotAll : s.drawing clip x y n = Drawing.plotAll clip
    (spots (originX (s.getV x)) (originY (s.getV y)) (s.spriteRows n)) ⟨s.fb, false⟩ := Drawing.rows_eq_plotAll ..

variable (hn : n ≤ 15)
include hn

theorem apart_sprite :
    Apart clip (spots (originX (s.getV x)) (originY (s.getV y)) (s.spriteRows n)) :=
  apart_spots clip (by simpa [State.spriteRows] using hn)

theorem pixel_drawing_covered {px : Fin 64} {py : Fin 32} (h : SpriteCovers clip s x y n px py) :
    (s.drawing clip x y n).fb.pixel px py = !s.fb.pixel px py := by
  rw [State.drawing_eq_plotAll, Drawing.pixel_plotAll (apart_sprite clip s x y n hn),
    if_pos ((spriteCovers_iff clip s x y n).mp h)]

theorem pixel_drawing_uncovered {px : Fin 64} {py : Fin 32} (h : ¬ SpriteCovers clip s x y n px py) :
    (s.drawing clip x y n).fb.pixel px py = s.fb.pixel px py := by
  rw [State.drawing_eq_plotAll, Drawing.pixel_plotAll (apart_sprite clip s x y n hn),
    if_neg (mt (spriteCovers_iff clip s x y n).mpr h)]

theorem collision_drawing : (s.drawing clip x y n).collision = true ↔
    ∃ px py, SpriteCovers clip s x y n px py ∧ s.fb.pixel px py = true := by
  rw [State.drawing_eq_plotAll, Drawing.collision_plotAll (apart_sprite clip s x y n hn)]
  constructor
  · rintro (h | ⟨p, hp, px, py, hl, hlit⟩)
    · cases h
    · exact ⟨px, py, (spriteCovers_iff clip s x y n).mpr ⟨p, hp, hl⟩, hlit⟩
  · rintro ⟨px, py, hcov, hlit⟩
    obtain ⟨p, hp, hl⟩ := (spriteCovers_iff clip s x y n).mp hcov
    exact .inr ⟨p, hp, px, py, hl, hlit⟩

end

/-- Settles O31. The drawing flips and collides as its plots do, and VF is the collision. -/
theorem drawFlipsExactlyTheCoveredPixels : Obligations.DrawFlipsExactlyTheCoveredPixels := by
  unfold Obligations.DrawFlipsExactlyTheCoveredPixels
  intro s x y n hn
  have hflag : (work (.drw x y n) s).getV 15 = flagByte (s.drawing Config.qClip x y n).collision :=
    State.getV_setV_same _ vf _
  refine ⟨_, exec_plain_next rfl s, ⟨rfl, rfl⟩, fun px py => pixel_drawing_covered _ s x y n hn,
    fun px py => pixel_drawing_uncovered _ s x y n hn, fun hlit => hflag.trans ?lit, fun hdark => hflag.trans ?dark,
    fun k hk => State.getV_setV_ne _ _ hk, rfl⟩
  case lit => rw [(collision_drawing _ s x y n hn).mpr hlit]; rfl
  case dark => rw [Bool.eq_false_iff.mpr (mt (collision_drawing _ s x y n hn).mp hdark)]; rfl

/-- What a sprite covers depends on memory, `I` and the two origin registers (R171). -/
theorem spriteCovers_congr {s u : State} {x y : RegIx} (hm : u.mem = s.mem) (hI : u.I = s.I)
    (hx : u.getV x = s.getV x) (hy : u.getV y = s.getV y) (clip : Bool) (n : Nat) (px : Fin 64) (py : Fin 32) :
    SpriteCovers clip u x y n px py ↔ SpriteCovers clip s x y n px py := by
  simp only [SpriteCovers, hI, hx, hy, State.memRead_congr hm]

/-- Settles O32. The second draw flips the same pixels back, and collides where the first one turned a pixel on. -/
theorem drawingTwiceRestoresTheScreen : Obligations.DrawingTwiceRestoresTheScreen := by
  unfold Obligations.DrawingTwiceRestoresTheScreen
  intro s x y n hn
  obtain ⟨t, hnext, -, hflip, hkeep, -⟩ := drawFlipsExactlyTheCoveredPixels s x y n hn
  refine ⟨t, hnext, fun u hfb hm hI hx hy => ?_⟩
  obtain ⟨v, hnext', -, hflip', hkeep', hlit', hdark', -⟩ := drawFlipsExactlyTheCoveredPixels u x y n hn
  have hsame := spriteCovers_congr hm hI hx hy Config.qClip n
  have hcovered : ∀ px py, SpriteCovers Config.qClip s x y n px py → u.fb.pixel px py = !s.fb.pixel px py :=
    fun px py h => by rw [hfb, hflip px py h]
  have hvf : v.getV 15 = 1 ↔ ∃ px py, SpriteCovers Config.qClip u x y n px py ∧ u.fb.pixel px py = true := by
    refine ⟨fun h1 => ?_, hlit'⟩
    by_contra hnone
    rw [hdark' hnone] at h1
    cases h1
  have hon : v.getV 15 = 1 ↔ ∃ px py, SpriteCovers Config.qClip s x y n px py ∧ s.fb.pixel px py = false := by
    rw [hvf]
    refine exists₂_congr fun px py => ?_
    rw [hsame]
    exact and_congr_right fun h => by rw [hcovered px py h, Bool.not_eq_true']
  refine ⟨v, hnext', Framebuffer.ext_pixel fun px py => ?restored, hon, fun hoff => ?clear⟩
  case restored =>
    by_cases h : SpriteCovers Config.qClip s x y n px py
    · rw [hflip' px py ((hsame px py).mpr h), hcovered px py h, Bool.not_not]
    · rw [hkeep' px py (mt (hsame px py).mp h), hfb, hkeep px py h]
  case clear =>
    rw [hon]
    exact exists₂_congr fun px py => and_iff_left_of_imp (hoff px py)

/-- At column 63 the second column of a row falls on column 0, off the screen when it is not wrapped (R172). -/
theorem spriteCovers_column_zero {clip : Bool} {s : State} {x y : RegIx} {n r : Nat} {py : Fin 32}
    (h63 : (s.getV x).toNat % 64 = 63) (hr : r < n) (hb : (s.memRead (s.I.toNat + r)).getLsbD 6 = true)
    (hpy : py.val = (s.getV y).toNat % 32 + r) : SpriteCovers clip s x y n 0 py ↔ clip = false := by
  cases clip with
  | true =>
    refine iff_of_false ?_ nofun
    rintro ⟨r', c, -, -, -, hl⟩
    have hx : (s.getV x).toNat % 64 + c = 0 := hl.1
    omega
  | false =>
    refine iff_of_true ⟨r, 1, hr, by decide, hb, ?_, ?_⟩ rfl
    · show ((s.getV x).toNat % 64 + 1) % 64 = 0
      omega
    · have := py.isLt
      omega

/-- Settles O33. The first three are the case of one draw; the last is that of the writers of the framebuffer. -/
theorem drawPropertiesTheSourceTests : Obligations.DrawPropertiesTheSourceTests := by
  unfold Obligations.DrawPropertiesTheSourceTests
  refine ⟨fun s t x y n hn h => ?_, fun i s t h hfb => ?writers⟩
  case writers =>
    obtain ⟨-, -, -, -, -, -, hfbw, -⟩ := eachPieceOfStateHasItsWriters i s t h
    exact hfbw hfb
  obtain ⟨t', hnext, -, hflip, hkeep, hlit, hdark, -⟩ := drawFlipsExactlyTheCoveredPixels s x y n hn
  obtain rfl : t' = t := Host.Outcome.next.inj (hnext.symm.trans h)
  refine ⟨hlit, fun hoff => hdark ?_, fun h63 r hr hb py hpy => ?_⟩
  · rintro ⟨px, py, hcov, hp⟩
    rw [hoff px py hcov] at hp
    cases hp
  · have hcov := spriteCovers_column_zero (clip := Config.qClip) h63 hr hb hpy
    cases hq : Config.qClip with
    | true => exact hkeep 0 py fun hc => by rw [hcov.mp hc] at hq; cases hq
    | false => exact hflip 0 py (hcov.mpr hq)

end Sys2Proof.Machine
end

section
/-! PROOF. The host's operations (spec/60_exceptions.md R211 to R214): what each writes, and one induction over the
sequences the host can choose, from which the claims about a halted and about a spinning machine follow. -/

namespace Sys2Proof.Machine

/-! ### The keypad -/

theorem key_setKey_same (s : State) (k : KeyIx) (p : Bool) : (s.setKey k p).key[k] = p := by
  simp

theorem key_setKey_other (s : State) {k j : KeyIx} (p : Bool) (h : j ≠ k) : (s.setKey k p).key[j] = s.key[j] := by
  rw [State.setKey_key, Fin.getElem_fin, Vector.getElem_set_ne _ _ (Fin.val_ne_of_ne h.symm), Fin.getElem_fin]

/-- Setting a key to the level it has changes nothing (R213). -/
theorem setKey_of_level {s : State} {k : KeyIx} {p : Bool} (h : s.key[k] = p) : s.setKey k p = s := by
  have hset : s.key.set k.val p k.isLt = s.key := by rw [← h, Fin.getElem_fin, Vector.set_getElem_self]
  rw [State.setKey, hset]

theorem setKey_setKey (s : State) (k : KeyIx) (p q : Bool) : (s.setKey k p).setKey k q = s.setKey k q := by
  rw [State.setKey, State.setKey_key, Vector.set_set]
  rfl

/-! ### Waiting for a key -/

/-- The lowest fresh key is the one that is found (R182). -/
theorem lowestFresh_eq_some {s : State} {k : KeyIx} (hk : FreshKey s k) (hlow : ∀ j, j < k → ¬ FreshKey s j) :
    lowestFresh s.key s.keyPrev = some k := by
  cases hf : lowestFresh s.key s.keyPrev with
  | none => exact absurd hk (lowestFresh_none.mp hf k)
  | some j =>
    obtain ⟨hj, hlow'⟩ := lowestFresh_spec hf
    rcases lt_trichotomy j k with hlt | rfl | hlt
    · exact absurd hj (hlow j hlt)
    · rfl
    · exact absurd hk (hlow' k hlt)

/-- Settles O35. The key that is found is the lowest fresh one. -/
theorem waitForKeyBlocksUntilAFreshPress : Obligations.WaitForKeyBlocksUntilAFreshPress := by
  unfold Obligations.WaitForKeyBlocksUntilAFreshPress
  refine fun s x => ⟨execLdVxK_eq_of_running, fun hr hnone => ?blocked, fun hr k hk hlow => ?fresh,
    fun r => execLdVxK_eq_of_halted⟩
  case blocked => exact (execLdVxK_eq_of_none hr (lowestFresh_none.mpr hnone)).trans (by rw [← hr])
  case fresh =>
    refine ⟨_, execLdVxK_eq_of_some hr (lowestFresh_eq_some hk hlow), ⟨rfl, rfl⟩, rfl, ?value,
      fun j hj => State.getV_setV_ne s _ hj, rfl⟩
    have hval : (BitVec.ofNat 8 k.val).toNat = k.val := by rw [BitVec.toNat_ofNat]; omega
    exact (congrArg BitVec.toNat (State.getV_setV_same s x _)).trans hval

/-- Settles O36. The two key changes cancel, and the step is that of the untouched wait. -/
theorem pressBetweenTwoStepsIsNotSeen : Obligations.PressBetweenTwoStepsIsNotSeen := by
  unfold Obligations.PressBetweenTwoStepsIsNotSeen
  intro s k hinv hr hup hnone
  obtain ⟨hpc, x, hx⟩ := hinv.waits hr
  have hkeys : (s.setKey k true).setKey k false = s := by rw [setKey_setKey, setKey_of_level hup]
  have hrun : ∀ r, s.run ≠ .halted r := fun r hh => by rw [hr] at hh; cases hh
  have hstep : step s = .next { s with run := .waiting, keyPrev := s.key, result := some .blocked } :=
    (step_of_known hrun hpc hx).trans (execLdVxK_eq_of_none hr (lowestFresh_none.mpr hnone))
  have hops : runOps [.setKey k true, .setKey k false, .step] s =
      .next { s with run := .waiting, keyPrev := s.key, result := some .blocked } := by
    simp only [runOps, transition, hkeys, hstep]
  exact ⟨_, hops, rfl, rfl, rfl, rfl⟩

/-! ### The timers -/

/-- Settles O38, by induction on the number of ticks. -/
theorem ticksCountDownToZeroAndStay : Obligations.TicksCountDownToZeroAndStay := by
  unfold Obligations.TicksCountDownToZeroAndStay
  intro n
  induction n with
  | zero => exact fun s => ⟨s, rfl, rfl, rfl, rfl⟩
  | succ n ih =>
    intro s
    obtain ⟨t, hrun, hDT, hST, hframe⟩ := ih s.tickTimers
    rw [State.tickTimers_DT, toNat_countDown] at hDT
    rw [State.tickTimers_ST, toNat_countDown] at hST
    exact ⟨t, hrun, by omega, by omega, hframe⟩

theorem exec_DT_writer {i : Instr} {s t : State} (h : exec i s = .next t) (hne : t.DT ≠ s.DT) :
    ∃ x, i = .ldDTVx x ∧ t.DT = s.getV x := by
  obtain ⟨-, -, -, -, hDT, -⟩ := eachPieceOfStateHasItsWriters i s t h
  obtain ⟨x, rfl⟩ := hDT hne
  rw [← Host.Outcome.next.inj ((exec_plain_next rfl s).symm.trans h)]
  exact ⟨x, rfl, rfl⟩

theorem exec_ST_writer {i : Instr} {s t : State} (h : exec i s = .next t) (hne : t.ST ≠ s.ST) :
    ∃ x, i = .ldSTVx x ∧ t.ST = s.getV x := by
  obtain ⟨-, -, -, -, -, hST, -⟩ := eachPieceOfStateHasItsWriters i s t h
  obtain ⟨x, rfl⟩ := hST hne
  rw [← Host.Outcome.next.inj ((exec_plain_next rfl s).symm.trans h)]
  exact ⟨x, rfl, rfl⟩

/-- A step never writes the keypad (R28). -/
theorem step_key {s t : State} (h : step s = .next t) : t.key = s.key := by
  rcases step_cases h with ⟨_, -, rfl⟩ | ⟨-, -, rfl⟩ | ⟨-, -, _, -, rfl⟩ | ⟨-, -, i, -, hexec⟩
  case inr.inr.inr =>
    obtain ⟨-, -, -, -, -, -, -, hkey, -⟩ := eachPieceOfStateHasItsWriters i s t hexec
    exact hkey
  all_goals rfl

/-- Settles O39. Of the step's cases only the executed instruction writes a timer, and none the keypad. -/
theorem timersAndKeysBelongToTheHost : Obligations.TimersAndKeysBelongToTheHost := by
  unfold Obligations.TimersAndKeysBelongToTheHost
  refine ⟨fun s t h => ?timers, fun o s t h hne => ?keys, fun s k p => ⟨_, rfl, key_setKey_same s k p,
    fun j => key_setKey_other s p, rfl, setKey_of_level⟩⟩
  case timers =>
    rcases step_cases h with ⟨_, -, rfl⟩ | ⟨-, -, rfl⟩ | ⟨-, -, _, -, rfl⟩ | ⟨-, -, i, hi, hexec⟩
    case inr.inr.inr =>
      refine ⟨fun hne => ?_, fun hne => ?_⟩
      · obtain ⟨x, rfl, hval⟩ := exec_DT_writer hexec hne
        exact ⟨x, hi, hval⟩
      · obtain ⟨x, rfl, hval⟩ := exec_ST_writer hexec hne
        exact ⟨x, hi, hval⟩
    all_goals exact ⟨absurd rfl, absurd rfl⟩
  case keys =>
    cases o with
    | setKey k p => exact .inl ⟨k, p, rfl⟩
    | reset image => exact .inr ⟨image, rfl⟩
    | step => exact absurd (step_key h) hne
    | tickTimers => exact absurd (congrArg State.key (Host.Outcome.next.inj h).symm) hne

/-! ### Sequences of operations -/

/-- What every operation of a sequence keeps, the sequence keeps, and it answers a next state. -/
theorem runOps_keeps {P : State → Prop} {ops : List HostOp}
    (hop : ∀ o ∈ ops, ∀ s, P s → ∃ t, transition o s = .next t ∧ P t) {s : State} (hs : P s) :
    ∃ t, runOps ops s = .next t ∧ P t := by
  induction ops generalizing s with
  | nil => exact ⟨s, rfl, hs⟩
  | cons o ops ih =>
    obtain ⟨ho, hops⟩ := List.forall_mem_cons.mp hop
    obtain ⟨u, hu, hPu⟩ := ho s hs
    obtain ⟨t, ht, hPt⟩ := ih hops hPu
    exact ⟨t, by rw [runOps, hu]; exact ht, hPt⟩

/-- The second state differs from the first only in what the host drives and in the recorded result. -/
def OnlyHostDriven (s t : State) : Prop := t = { s with DT := t.DT, ST := t.ST, key := t.key, result := t.result }

/-- A machine whose every step does nothing but answer is changed only by the host's ticks and keys until a reset. -/
theorem runOps_onlyHostDriven {s : State}
    (hstep : ∀ u, OnlyHostDriven s u → ∃ r, step u = .next { u with result := r }) {ops : List HostOp}
    (hreset : ∀ image, HostOp.reset image ∉ ops) : ∃ t, runOps ops s = .next t ∧ OnlyHostDriven s t := by
  refine runOps_keeps (P := OnlyHostDriven s) (fun o ho u hu => ?_) rfl
  cases o with
  | reset image => exact absurd ho (hreset image)
  | step =>
    obtain ⟨r, hr⟩ := hstep u hu
    exact ⟨_, hr, (congrArg (fun v : State => { v with result := r }) hu :)⟩
  | tickTimers => exact ⟨_, rfl, congrArg State.tickTimers hu⟩
  | setKey k p => exact ⟨_, rfl, congrArg (fun v : State => v.setKey k p) hu⟩

/-- The host's runner takes its first step and goes on from there. -/
theorem run_succ_of_next (M : Host.Core) (k : Nat) {s t : M.State} (h : M.step s = .next t) :
    M.run (k + 1) s = M.run k t := by
  rw [Host.Core.run, h]

theorem run_of_halted (k : Nat) {s : State} {r : FatalReason} (h : s.run = .halted r) :
    Host.Core.run Sys2Proof.core (k + 1) s = .next { s with result := some (.fatal r) } := by
  induction k generalizing s with
  | zero => exact run_succ_of_next Sys2Proof.core 0 (step_of_halted h)
  | succ k ih => exact (run_succ_of_next Sys2Proof.core (k + 1) (step_of_halted h)).trans (ih h)

/-- Settles O9. A halted machine's step only answers. -/
theorem fatalIsForGoodUntilReset : Obligations.FatalIsForGoodUntilReset := by
  unfold Obligations.FatalIsForGoodUntilReset
  refine fun s r h => ⟨fun k => run_of_halted k h, fun ops hreset => runOps_onlyHostDriven (fun u hu => ?_) hreset⟩
  have hrun : u.run = .halted r := (congrArg State.run hu).trans h
  exact ⟨_, step_of_halted hrun⟩

/-- A spinning machine's step only answers `Continue` (R247, R101). -/
theorem step_of_spinning {s : State} (h : s.Spinning) : step s = .next { s with result := some .continued } := by
  obtain ⟨hrun, hpc, nnn, hi, htarget⟩ := h
  have hnot : ∀ r, s.run ≠ .halted r := fun r hr => by rw [hrun] at hr; cases hr
  calc step s = exec (.jp nnn) s := step_of_known hnot hpc hi
    _ = .next { s with pc := zext16 nnn, result := some .continued } := exec_jump rfl s
    _ = .next { s with result := some .continued } := by rw [htarget]

theorem spinning_of_onlyHostDriven {s t : State} (h : s.Spinning) (ht : OnlyHostDriven s t) : t.Spinning := by
  rw [ht]
  exact h

/-- Settles O48. A spinning machine's step only answers. -/
theorem aSpinningProgramStays : Obligations.ASpinningProgramStays := by
  unfold Obligations.ASpinningProgramStays
  refine fun s h => ⟨step_of_spinning h, fun ops hreset => ?_⟩
  obtain ⟨t, ht, hframe⟩ :=
    runOps_onlyHostDriven (fun u hu => ⟨_, step_of_spinning (spinning_of_onlyHostDriven h hu)⟩) hreset
  exact ⟨t, ht, spinning_of_onlyHostDriven h hframe, hframe⟩

end Sys2Proof.Machine
end

section
/-! PROOF. The invariant (spec/10_state.md R24, R25, R29, R33): it holds after reset, every step keeps it, and so does
every other operation of the host. -/

namespace Sys2Proof.Machine

/-! ### Reset -/

theorem reset_memRead {a : Nat} (h : a < 4096) :
    State.reset.memRead a = if 0x050 ≤ a ∧ a ≤ 0x09F then fontBytes.getD (a - 0x050) 0 else 0 := by
  split
  · next hfont => exact State.memRead_fontBytes _ hfont.1 hfont.2
  · next hfont =>
    have hf : isFont a = false := Bool.eq_false_iff.mpr (mt isFont_iff.mp hfont)
    rw [State.memRead_of_lt _ h, Memory.read_not_font _ hf]
    rfl

/-- Settles O40. Memory reads its background, since nothing is listed. -/
theorem resetStateIsTheTable : Obligations.ResetStateIsTheTable := by
  unfold Obligations.ResetStateIsTheTable
  refine ⟨fun a => reset_memRead, rfl, rfl, rfl, rfl, fun k => ?regs, rfl, Framebuffer.pixel_clear, fun k => ?keys, rfl⟩
  case regs => simp [State.getV, State.reset]
  case keys => simp [State.reset]

/-- A state that stands where the reset state stands meets the invariant as soon as its memory is canonical. -/
theorem inv_of_reset {m : Memory} (hm : m.wf = true) (n : Nat) : { State.reset with mem := m, draws := n }.Inv where
  mem_wf := hm
  pc_le := (by decide : State.reset.pc.toNat ≤ 0x10FE)
  stack_le := fun _ hk => absurd hk (Nat.not_lt_zero _)
  waits := nofun

/-- Settles O42. An image that fits is canonical memory, and the rest stands as after reset. -/
theorem invariantHoldsAtReset : Obligations.InvariantHoldsAtReset := by
  unfold Obligations.InvariantHoldsAtReset
  refine ⟨inv_of_reset (m := []) rfl 0, fun image s h => ?_⟩
  have hw := hostReset_wf image s h
  rw [hostReset_of_fits s h] at hw ⊢
  exact inv_of_reset hw s.draws

/-! ### One step -/

/-- The invariant looks at memory, `pc`, the stack and whether the machine waits. -/
theorem State.Inv.congr {s t : State} (h : s.Inv) (hmem : t.mem = s.mem) (hpc : t.pc = s.pc)
    (hstack : t.stack = s.stack) (hsp : t.sp = s.sp) (hwait : t.run = .waiting → s.run = .waiting) : t.Inv where
  mem_wf := hmem ▸ h.mem_wf
  pc_le := hpc ▸ h.pc_le
  stack_le := by rw [hstack, hsp]; exact h.stack_le
  waits := fun hr => by
    rw [hpc, State.fetchWord_congr hmem hpc]
    exact h.waits (hwait hr)

section
variable {s t : State} (h : s.Inv)
include h

/-- A wait stands at its `LD Vx,K`, so where anything else is decoded the machine does not wait (R29). -/
theorem State.Inv.not_waiting {d : Decoded} (hd : decode s.fetchWord = d) (hne : ∀ x, d ≠ .known (.ldVxK x)) :
    s.run ≠ .waiting := fun hr => by
  obtain ⟨-, x, hx⟩ := h.waits hr
  exact hne x (hd.symm.trans hx)

/-- The invariant after a move of `pc` that leaves the stack. -/
theorem State.Inv.of_pc (hmem : t.mem.wf = true) (hpc : t.pc.toNat ≤ 0x10FE) (hstack : t.stack = s.stack)
    (hsp : t.sp = s.sp) (hrun : t.run ≠ .waiting) : t.Inv where
  mem_wf := hmem
  pc_le := hpc
  stack_le := by rw [hstack, hsp]; exact h.stack_le
  waits := fun hr => absurd hr hrun

end

theorem toNat_advance_le {pc d : Word} {n : Nat} (hpc : pc.toNat ≤ 4094) (hd : d.toNat ≤ n) :
    (pc + d).toNat ≤ 4094 + n := by
  rw [BitVec.toNat_add]
  exact Nat.le_trans (Nat.mod_le _ _) (Nat.add_le_add hpc hd)

/-- The end of a fetched word is at most 0x1000. -/
theorem toNat_next_le {pc : Word} (hpc : pc.toNat ≤ 4094) : (pc + 2).toNat ≤ 0x1000 :=
  toNat_advance_le (d := 2) (n := 2) hpc (by decide)

theorem work_mem_wf (i : Instr) {s : State} (hw : s.mem.wf = true) : (work i s).mem.wf = true := by
  by_cases hne : (work i s).mem = s.mem
  · rw [hne]; exact hw
  · obtain ⟨x, rfl | rfl⟩ := work_mem_writers hne
    · exact State.storeBytes_wf _ _ hw
    · show (s.dumpRegs s.I.toNat (regsUpTo x)).mem.wf = true
      rw [State.dumpRegs_eq_storeBytes]
      exact State.storeBytes_wf _ _ hw

theorem jumpTarget_le {i : Instr} (hk : kindOf i = .jump) (s : State) : (jumpTarget i s).toNat ≤ 0x10FE := by
  have hv0 := (s.getV 0).isLt
  rcases jumpTarget_cases hk s with ⟨nnn, -, hpc⟩ | ⟨nnn, -, hpc⟩ <;> have hnnn := nnn.isLt <;> omega

/-- A `RET` goes to a live return address and leaves those below it. -/
theorem State.Inv.execRet {s t : State} (h : s.Inv) (hrun : s.run ≠ .waiting) (ht : execRet s = .next t) : t.Inv := by
  rcases execRet_depth_cases ht with ⟨hs, rfl⟩ | ⟨-, rfl⟩
  case inr => exact h.congr rfl rfl rfl rfl nofun
  case inl =>
    refine ⟨h.mem_wf, ?target, fun k hk => h.stack_le k (Nat.lt_of_lt_of_le hk (Nat.sub_le _ _)),
      fun hr => absurd hr hrun⟩
    case target =>
      have htop := h.stack_le ⟨s.sp.val - 1, by omega⟩ (Nat.sub_lt hs Nat.one_pos)
      exact Nat.le_trans htop (by decide)

section
variable {s t : State} (h : s.Inv) (hpc : s.pc.toNat ≤ 4094)
include h hpc

/-- A `CALL` pushes at most 4094 + 2 (R103). -/
theorem State.Inv.execCall {nnn : Addr12} (hrun : s.run ≠ .waiting) (ht : execCall nnn s = .next t) : t.Inv := by
  rcases execCall_depth_cases ht with ⟨hs, rfl⟩ | ⟨-, rfl⟩
  case inr => exact h.congr rfl rfl rfl rfl nofun
  case inl =>
    have hnnn := nnn.isLt
    refine ⟨h.mem_wf, ?target, fun k hk => ?entries, fun hr => absurd hr hrun⟩
    case target => exact (toNat_zext16 nnn).trans_le (by omega)
    case entries =>
      by_cases htop : k.val = s.sp.val
      · rw [stack_set_sp_same hs htop]
        exact toNat_next_le hpc
      · rw [stack_set_sp_other hs htop]
        have hk' : k.val < s.sp.val + 1 := hk
        exact h.stack_le k (by omega)

/-- `LD Vx,K` keeps waiting at its own word, or completes and runs. -/
theorem State.Inv.execLdVxK {x : RegIx} (hx : decode s.fetchWord = .known (.ldVxK x))
    (ht : execLdVxK x s = .next t) : t.Inv := by
  rcases execLdVxK_cases ht with ⟨-, rfl⟩ | ⟨-, _, -, rfl⟩ | ⟨r, hr, rfl⟩
  · exact ⟨h.mem_wf, h.pc_le, h.stack_le, fun _ => ⟨hpc, x, hx⟩⟩
  · exact h.of_pc h.mem_wf (Nat.le_trans (toNat_next_le hpc) (by decide)) rfl rfl nofun
  · exact h.congr rfl rfl rfl rfl id

/-- Executing the decoded instruction keeps the invariant. -/
theorem State.Inv.exec {i : Instr} (hi : decode s.fetchWord = .known i) (ht : exec i s = .next t) : t.Inv := by
  have hrun : (∀ x, i ≠ .ldVxK x) → s.run ≠ .waiting := fun hne =>
    h.not_waiting hi fun x hx => hne x (Decoded.known.inj hx)
  rcases exec_cases ht with ⟨hk, rfl⟩ | ⟨hk, rfl⟩ | ⟨hk, rfl⟩ | ⟨nnn, rfl, ht⟩ | ⟨rfl, ht⟩ | ⟨x, rfl, ht⟩
  · refine h.of_pc (work_mem_wf i h.mem_wf) (Nat.le_trans (toNat_next_le hpc) (by decide)) (work_stack i s)
      (work_sp i s) ?_
    exact work_run i s ▸ hrun (by rintro x rfl; cases hk)
  · have hskip : (if skipTest i s then 4 else 2 : Word).toNat ≤ 4 := by split <;> decide
    exact h.of_pc h.mem_wf (Nat.le_trans (toNat_advance_le hpc hskip) (by decide)) rfl rfl
      (hrun (by rintro x rfl; cases hk))
  · exact h.of_pc h.mem_wf (jumpTarget_le hk s) rfl rfl (hrun (by rintro x rfl; cases hk))
  · exact h.execCall hpc (hrun nofun) ht
  · exact h.execRet (hrun nofun) ht
  · exact h.execLdVxK hpc hi ht

end

/-- Settles O43. Only an executed instruction moves the stack or starts a wait, and a wait executes nothing but its `LD
Vx,K`. -/
theorem invariantKeptByEveryStep : Obligations.InvariantKeptByEveryStep := by
  unfold Obligations.InvariantKeptByEveryStep
  intro s t h ht
  rcases step_cases ht with ⟨_, -, rfl⟩ | ⟨-, -, rfl⟩ | ⟨-, hpc, w, hw, rfl⟩ | ⟨-, hpc, i, hi, hexec⟩
  · exact h.congr rfl rfl rfl rfl id
  · exact h.congr rfl rfl rfl rfl nofun
  · exact h.of_pc h.mem_wf (Nat.le_trans (toNat_next_le hpc) (by decide)) rfl rfl (h.not_waiting hw nofun)
  · exact h.exec hpc hi hexec

/-! ### Every operation of the host -/

theorem State.Inv.hostReset {s : State} (h : s.Inv) (image : List Byte) : (s.hostReset image).2.Inv := by
  cases hfit : imageFits image with
  | true => exact invariantHoldsAtReset.2 image s hfit
  | false => rw [hostReset_of_too_large s hfit]; exact h

theorem State.Inv.transition {s : State} (h : s.Inv) (o : HostOp) : ∃ t, transition o s = .next t ∧ t.Inv := by
  cases o with
  | reset image => exact ⟨_, rfl, h.hostReset image⟩
  | step =>
    obtain ⟨t, ht⟩ := step_answers s
    exact ⟨t, ht, invariantKeptByEveryStep s t h ht⟩
  | tickTimers => exact ⟨_, rfl, h.congr rfl rfl rfl rfl id⟩
  | setKey k p => exact ⟨_, rfl, h.congr rfl rfl rfl rfl id⟩

/-- Settles O44. Every operation of the host keeps the invariant, so every sequence does. -/
theorem invariantKeptOverEveryInterleaving : Obligations.InvariantKeptOverEveryInterleaving := by
  unfold Obligations.InvariantKeptOverEveryInterleaving
  exact fun ops s h => runOps_keeps (fun o _ s hs => hs.transition o) h

end Sys2Proof.Machine
end

section
/-! PROOF. What nothing reads (spec/10_state.md R24, R29): an instruction executes alike in two states that differ in
dead stack entries, in `key_prev` outside a wait and in the recorded result. -/

namespace Sys2Proof.Machine

/-- The state with other values where nothing reads. -/
def State.withUnread (s : State) (stack : Vector Word 16) (keyPrev : Vector Bool 16) (result : Option StepResult) :
    State :=
  { s with stack := stack, keyPrev := keyPrev, result := result }

section
variable (s : State) (st : Vector Word 16) (kp : Vector Bool 16) (a : Option StepResult)

theorem storeBytes_withUnread (base : Nat) (bs : List Byte) :
    (s.withUnread st kp a).storeBytes base bs = (s.storeBytes base bs).withUnread st kp a := by
  induction bs generalizing base s with
  | nil => rfl
  | cons b bs ih => exact ih (s.memWrite base b) (base + 1)

theorem dumpRegs_withUnread (base : Nat) (ks : List RegIx) :
    (s.withUnread st kp a).dumpRegs base ks = (s.dumpRegs base ks).withUnread st kp a := by
  induction ks generalizing s with
  | nil => rfl
  | cons k ks ih => exact ih (s.memWrite (base + k.val) (s.getV k))

theorem loadRegs_withUnread (base : Nat) (ks : List RegIx) :
    (s.withUnread st kp a).loadRegs base ks = (s.loadRegs base ks).withUnread st kp a := by
  induction ks generalizing s with
  | nil => rfl
  | cons k ks ih => exact ih (s.setV k (s.memRead (base + k.val)))

theorem work_withUnread (i : Instr) : work i (s.withUnread st kp a) = (work i s).withUnread st kp a := by
  cases i with
  | ldB x => exact storeBytes_withUnread s st kp a _ _
  | ldMemVx x =>
    exact congrArg (fun u : State => { u with I := indexAfter Config.qMemIncI x s.I })
      (dumpRegs_withUnread s st kp a _ _)
  | ldVxMem x =>
    exact congrArg (fun u : State => { u with I := indexAfter Config.qMemIncI x s.I })
      (loadRegs_withUnread s st kp a _ _)
  | _ => rfl

theorem skipTest_withUnread (i : Instr) : skipTest i (s.withUnread st kp a) = skipTest i s := by
  cases i <;> rfl

theorem jumpTarget_withUnread (i : Instr) : jumpTarget i (s.withUnread st kp a) = jumpTarget i s := by
  cases i <;> rfl

end

/-- Two outcomes are next states with the same result that differ only where nothing reads. -/
def AlikeButUnread (o o' : Out) : Prop :=
  ∃ t v, o = .next t ∧ o' = .next v ∧ SameButUnread t v ∧ t.result = v.result

section
variable {s : State} {st : Vector Word 16} {kp : Vector Bool 16} (a : Option StepResult)
  (hst : ∀ k : Fin 16, k.val < s.sp.val → st[k] = s.stack[k]) (hkp : s.run = .waiting → kp = s.keyPrev)
include hst

theorem execCall_withUnread (nnn : Addr12) (hkp : s.run = .waiting → kp = s.keyPrev) :
    AlikeButUnread (execCall nnn s) (execCall nnn (s.withUnread st kp a)) := by
  by_cases hs : s.sp.val < 16
  · refine ⟨_, _, execCall_eq_of_lt hs, execCall_eq_of_lt (s := s.withUnread st kp a) hs,
      ⟨rfl, fun k hk => ?entries, hkp⟩, rfl⟩
    have hk' : k.val < s.sp.val + 1 := hk
    by_cases htop : k.val = s.sp.val
    · exact (stack_set_sp_same (s := s.withUnread st kp a) hs htop).trans (stack_set_sp_same hs htop).symm
    · exact ((stack_set_sp_other (s := s.withUnread st kp a) hs htop).trans (hst k (by omega))).trans
        (stack_set_sp_other hs htop).symm
  · have hfull : s.sp.val = 16 := by omega
    exact ⟨_, _, execCall_eq_of_full hfull, execCall_eq_of_full (s := s.withUnread st kp a) hfull,
      ⟨rfl, hst, nofun⟩, rfl⟩

theorem execRet_withUnread (hkp : s.run = .waiting → kp = s.keyPrev) :
    AlikeButUnread (execRet s) (execRet (s.withUnread st kp a)) := by
  rcases Nat.eq_zero_or_pos s.sp.val with hs | hs
  · exact ⟨_, _, execRet_eq_of_empty hs, execRet_eq_of_empty (s := s.withUnread st kp a) hs,
      ⟨rfl, hst, nofun⟩, rfl⟩
  · refine ⟨_, _, execRet_eq_of_pos hs, execRet_eq_of_pos (s := s.withUnread st kp a) hs,
      ⟨?state, fun k hk => hst k (Nat.lt_of_lt_of_le hk (Nat.sub_le _ _)), hkp⟩, rfl⟩
    have htop : st[s.sp.val - 1] = s.stack[s.sp.val - 1] := hst ⟨s.sp.val - 1, by omega⟩ (Nat.sub_lt hs Nat.one_pos)
    simp only [State.withUnread, htop]

theorem execLdVxK_withUnread (x : RegIx) (hkp : s.run = .waiting → kp = s.keyPrev) :
    AlikeButUnread (execLdVxK x s) (execLdVxK x (s.withUnread st kp a)) := by
  cases hr : s.run with
  | running =>
    exact ⟨_, _, execLdVxK_eq_of_running hr, execLdVxK_eq_of_running (s := s.withUnread st kp a) hr,
      ⟨rfl, hst, fun _ => rfl⟩, rfl⟩
  | waiting =>
    obtain rfl := hkp hr
    cases hf : lowestFresh s.key s.keyPrev with
    | none =>
      exact ⟨_, _, execLdVxK_eq_of_none hr hf, execLdVxK_eq_of_none (s := s.withUnread st s.keyPrev a) hr hf,
        ⟨rfl, hst, fun _ => rfl⟩, rfl⟩
    | some k =>
      exact ⟨_, _, execLdVxK_eq_of_some hr hf, execLdVxK_eq_of_some (s := s.withUnread st s.keyPrev a) hr hf,
        ⟨rfl, hst, nofun⟩, rfl⟩
  | halted r =>
    exact ⟨_, _, execLdVxK_eq_of_halted hr, execLdVxK_eq_of_halted (s := s.withUnread st kp a) hr,
      ⟨rfl, hst, hkp⟩, rfl⟩

include hkp

theorem exec_withUnread (i : Instr) : AlikeButUnread (exec i s) (exec i (s.withUnread st kp a)) := by
  cases hk : kindOf i with
  | plain =>
    refine ⟨_, _, exec_plain_next hk s, exec_plain_next hk _, ?_, rfl⟩
    rw [work_withUnread]
    exact ⟨rfl, by simpa [State.withUnread] using hst, by simpa [State.withUnread] using hkp⟩
  | skip =>
    refine ⟨_, _, exec_skip hk s, exec_skip hk _, ⟨?_, hst, hkp⟩, rfl⟩
    rw [skipTest_withUnread]
    rfl
  | jump =>
    refine ⟨_, _, exec_jump hk s, exec_jump hk _, ⟨?_, hst, hkp⟩, rfl⟩
    rw [jumpTarget_withUnread]
    rfl
  | call =>
    obtain ⟨nnn, rfl⟩ := eq_call_of_kind hk
    exact execCall_withUnread a hst nnn hkp
  | ret =>
    obtain rfl := eq_ret_of_kind hk
    exact execRet_withUnread a hst hkp
  | waitKey =>
    obtain ⟨x, rfl⟩ := eq_ldVxK_of_kind hk
    exact execLdVxK_withUnread a hst x hkp

theorem step_withUnread : AlikeButUnread (step s) (step (s.withUnread st kp a)) := by
  rcases halted_or_not s with ⟨r, hr⟩ | hr
  · exact ⟨_, _, step_of_halted hr, step_of_halted (s := s.withUnread st kp a) hr, ⟨rfl, hst, hkp⟩, rfl⟩
  · rcases Nat.lt_or_ge 4094 s.pc.toNat with hpc | hpc
    · exact ⟨_, _, step_of_out_of_bounds hr hpc, step_of_out_of_bounds (s := s.withUnread st kp a) hr hpc,
        ⟨rfl, hst, nofun⟩, rfl⟩
    · cases hd : decode s.fetchWord with
      | unknown w =>
        exact ⟨_, _, step_of_unknown hr hpc hd, step_of_unknown (s := s.withUnread st kp a) hr hpc hd,
          ⟨rfl, hst, hkp⟩, rfl⟩
      | known i =>
        rw [step_of_known hr hpc hd, step_of_known (s := s.withUnread st kp a) hr hpc hd]
        exact exec_withUnread a hst hkp i

end

/-- Settles O49. The second state is the first with other unread values, and the step does not look at them. -/
theorem unreadStateNeverMatters : Obligations.UnreadStateNeverMatters := by
  unfold Obligations.UnreadStateNeverMatters
  rintro s u ⟨hu, hst, hkp⟩ a
  have hwith : { u with result := a } = s.withUnread u.stack u.keyPrev a := by rw [hu]; rfl
  rw [hwith]
  exact step_withUnread a hst hkp

end Sys2Proof.Machine
end
